-- ==== Sys2Proof/Word.lean ====
section
/-! DEFINITION. The word types of the R-SAP-1 core (00_scope.md rule R7, section 4). Every value is
unsigned and every datapath element is 8 bits wide. -/

namespace Sys2Proof

/-- An 8-bit value: a register, an address, a memory byte or an operand byte (R7, R34). -/
abbrev Byte := BitVec 8

/-- Half of an opcode byte: `op` is bits 7 to 4, `sub` is bits 3 to 0 (R60). -/
abbrev Nibble := BitVec 4

/-- The 5-bit number of an instruction tag, the `sel` of rule R63. -/
abbrev Selector := BitVec 5

/-- The 4-bit microstep counter of rule R19 (width: rule R90, decision D10 of the spec). -/
abbrev Microstep := BitVec 4

end Sys2Proof
end

