-- ==== Sys2Proof/Config.lean ====
section
/-! DEFINITION. What an implementation of the R-SAP-1 core fixes (00_scope.md rules R7, R8). The spec
leaves one parameter open and no value free: "Nothing in this hardware is `any value`"
(93_implementation_defined.md), so no constant here is opaque. -/

namespace Sys2Proof

/-- The two values of the spec's open parameter `INCDEC_REALISATION` (R8, decision D6 of the spec). -/
inductive IncDecRealisation where
  /-- The spec's reference microcode for INC and DEC, with the extra signal K1 (R28, R136, R137). -/
  | k1
  /-- Opcodes 0xF1 and 0xF2 have no meaning and the run is refused at their microstep 2 (R8). -/
  | refuse
  deriving DecidableEq, Repr

/-- DESIGN CHOICE, log entry 1 (unsafe): this machine realises INC and DEC by `k1`, the spec's
reference. Every operation that depends on the parameter also exists with it as an argument (`romAs`,
`decodeControlAs`, `tickAs`, `runTicksAs`, `finishCycleAs`, `execAs`, `stepAs`, `coreAs`), and the one
without it is that one at this value. -/
def Config.incDecRealisation : IncDecRealisation := .k1

/-- The number of bytes of memory, "never resized" (R7, R17). -/
def Config.memorySize : Nat := 256

end Sys2Proof
end

