-- ==== Sys2Proof/Machine/ControlWord.lean ====
section
/-! DEFINITION. The control word: 16 named boolean signals (10_state.md rules R25 to R27) and K1 beside
them (R28), and the 19 words that the microcode ROM holds (46_microcode_rom_listing.md rule R171). -/

namespace Sys2Proof.Machine

/-- The vector of signals of one tick, in the source's order, each under its abbreviation (R25, R26).
Every signal is deasserted unless named (R83). -/
structure ControlWord where
  /-- halt: `hlt <- true`. -/
  hlt : Bool := false
  /-- memory-address-in: `mar <- bus`. -/
  mi : Bool := false
  /-- ram-in: `memory[mar] <- bus`. -/
  ri : Bool := false
  /-- ram-out: `bus <- memory[mar]`. -/
  ro : Bool := false
  /-- instruction-in: `ir <- bus`. -/
  ii : Bool := false
  /-- step-reset: `t_step <- 0`. -/
  sr : Bool := false
  /-- A-in: `reg_a <- bus`. -/
  ai : Bool := false
  /-- A-out: `bus <- reg_a`. -/
  ao : Bool := false
  /-- ALU-out: `bus <- alu_out`. -/
  eo : Bool := false
  /-- subtract: the ALU computes `reg_a - reg_b`. -/
  su : Bool := false
  /-- B-in: `reg_b <- bus`. -/
  bi : Bool := false
  /-- output-in: `output <- bus`. -/
  oi : Bool := false
  /-- counter-enable: `pc <- inc8(pc)`. -/
  ce : Bool := false
  /-- counter-out: `bus <- pc`. -/
  co : Bool := false
  /-- jump: `pc <- bus` if flag-gate, else `pc <- inc8(pc)`. -/
  j : Bool := false
  /-- flag-gate: the branch condition of this tick, already evaluated. -/
  fg : Bool := false
  /-- K1, constant-one-out: `bus <- 0x01`. The spec's own 17th signal (R28). -/
  k1 : Bool := false
  deriving DecidableEq, Repr

/-- The numeric form: halt is bit 15, flag-gate bit 0, K1 bit 16 (R27, R28). -/
def ControlWord.toBits (w : ControlWord) : BitVec 17 :=
  BitVec.ofBool w.k1 ++ BitVec.ofBool w.hlt ++ BitVec.ofBool w.mi ++ BitVec.ofBool w.ri ++
  BitVec.ofBool w.ro ++ BitVec.ofBool w.ii ++ BitVec.ofBool w.sr ++ BitVec.ofBool w.ai ++
  BitVec.ofBool w.ao ++ BitVec.ofBool w.eo ++ BitVec.ofBool w.su ++ BitVec.ofBool w.bi ++
  BitVec.ofBool w.oi ++ BitVec.ofBool w.ce ++ BitVec.ofBool w.co ++ BitVec.ofBool w.j ++
  BitVec.ofBool w.fg

/-- No signal asserted: the reset value of the snapshot (R21, R31). -/
def ControlWord.zero : ControlWord := {}

/-- `MI+CO` 0x4004. -/
def ControlWord.miCo : ControlWord := { mi := true, co := true }
/-- `RO+II+CE` 0x1808. -/
def ControlWord.roIiCe : ControlWord := { ro := true, ii := true, ce := true }
/-- `MI+RO+CE` 0x5008. -/
def ControlWord.miRoCe : ControlWord := { mi := true, ro := true, ce := true }
/-- `RO+AI` 0x1200. -/
def ControlWord.roAi : ControlWord := { ro := true, ai := true }
/-- `RO+AI+CE` 0x1208. -/
def ControlWord.roAiCe : ControlWord := { ro := true, ai := true, ce := true }
/-- `RO+BI` 0x1020. -/
def ControlWord.roBi : ControlWord := { ro := true, bi := true }
/-- `RO+BI+CE` 0x1028. -/
def ControlWord.roBiCe : ControlWord := { ro := true, bi := true, ce := true }
/-- `AI+EO` 0x0280. -/
def ControlWord.aiEo : ControlWord := { ai := true, eo := true }
/-- `AI+EO+SU` 0x02C0. -/
def ControlWord.aiEoSu : ControlWord := { ai := true, eo := true, su := true }
/-- `RI+AO` 0x2100. -/
def ControlWord.riAo : ControlWord := { ri := true, ao := true }
/-- `RO+J` 0x1002, with FG (0x1003) when `gate` holds. -/
def ControlWord.roJ (gate : Bool) : ControlWord := { ro := true, j := true, fg := gate }
/-- `SR` 0x0400. -/
def ControlWord.stepReset : ControlWord := { sr := true }
/-- `SR+SU` 0x0440. -/
def ControlWord.srSu : ControlWord := { sr := true, su := true }
/-- `BI+K1` 0x10020. -/
def ControlWord.biK1 : ControlWord := { bi := true, k1 := true }
/-- `RI+EO` 0x2080. -/
def ControlWord.riEo : ControlWord := { ri := true, eo := true }
/-- `RI+EO+SU` 0x20C0. -/
def ControlWord.riEoSu : ControlWord := { ri := true, eo := true, su := true }
/-- `AO+OI` 0x0110. -/
def ControlWord.aoOi : ControlWord := { ao := true, oi := true }
/-- `HLT` 0x8000. -/
def ControlWord.halt : ControlWord := { hlt := true }

/-- How many bus drivers a word asserts (R105). -/
def ControlWord.drivers (w : ControlWord) : Nat :=
  w.co.toNat + w.ro.toNat + w.ao.toNat + w.eo.toNat + w.k1.toNat

/-- The combinations that occur in no word of the ROM are absent: two bus drivers, MI or RO with RI,
J with CE, FG without J, SR with HLT (R105, R107, R109, R172, R185). -/
def ControlWord.legal (w : ControlWord) : Bool :=
  w.drivers ≤ 1 && !(w.mi && w.ri) && !(w.ro && w.ri) && !(w.j && w.ce) && (!w.fg || w.j)
    && !(w.sr && w.hlt)

end Sys2Proof.Machine
end

