-- ==== Sys2Proof/Machine/State.lean ====
section
/-! DEFINITION. The whole state of the machine as plain data, its reset value, and the reasons a step can
stop (10_state.md rules R10 to R31). R29: "The elements of rules R10 to R24 are the whole state". -/

namespace Sys2Proof.Machine

/-- The 256 bytes of R17, as the cells whose byte is not 0x00, addresses strictly rising. -/
abbrev Memory := List Host.Cell

/-- What a byte that no cell lists reads as: the reset contents, 0x00 (R17, R31). -/
def Memory.unlisted : Byte := 0x00#8

/-- The cells are at addresses from `lo` up and below 256, strictly rising, none holding the unlisted
value. -/
def Memory.wfFrom : Nat → Memory → Bool
  | _, [] => true
  | lo, (k, v) :: rest => lo ≤ k && k < Config.memorySize && v != Memory.unlisted
      && Memory.wfFrom (k + 1) rest

/-- The one canonical form of memory. -/
def Memory.wf (m : Memory) : Bool := Memory.wfFrom 0 m

/-- The state of the machine between ticks (R29). -/
structure State where
  /-- `reg_a`, the accumulator (R10). -/
  regA : Byte
  /-- `reg_b`, the secondary register (R11). -/
  regB : Byte
  /-- `alu_out`, recomputed every tick (R12). -/
  aluOut : Byte
  /-- `cf`, the carry or borrow flag (R13). -/
  cf : Bool
  /-- `zf`, the zero flag (R14). -/
  zf : Bool
  /-- `pc`, the program counter (R16). -/
  pc : Byte
  /-- `memory`, 256 bytes (R17). -/
  memory : Memory
  /-- `hlt`, the halt flag (R18). -/
  hlt : Bool
  /-- `t_step`, the microstep the next tick decodes (R19). -/
  tStep : Microstep
  /-- `ir`, the instruction register (R20). -/
  ir : Byte
  /-- `control_word`, the word most recently applied (R21). -/
  controlWord : ControlWord
  /-- `mar`, the memory address register (R22). -/
  mar : Byte
  /-- `bus`, the value last driven onto the bus (R23). -/
  bus : Byte
  /-- `output`, the output register (R24). -/
  output : Byte
  deriving DecidableEq, Repr

/-- The core raises no fault: "The core raises no synchronous exception" (R180), and no access can fail
(R9, R43, R44). There is therefore no constructor, and no step can end in a fault. -/
inductive Fault where
  deriving DecidableEq, Repr

/-- Why the model answers no next state. None is raised by `step` from any state of this machine. -/
inductive Refusal where
  /-- An instruction of the table that has no meaning yet. Raised by `exec` only, and by no arm of it
  now. Safe: the model stops where the hardware goes on. -/
  | notModelled (mnemonic : String)
  /-- INC or DEC at microstep 2 or later under `INCDEC_REALISATION = refuse` (R8, R136, R137). Raised for
  that parameter value only, by `tickAs`, `execIncAs` and `execDecAs` and by what runs them (`runTicksAs`,
  `finishCycleAs`, `execAs`, `stepAs`, `coreAs`). Safe: the model stops where the
  hardware goes on. -/
  | incDecNotRealised
  /-- `load_program` with more than 256 bytes (R53, R183). Raised by `loadProgram` only. Safe: "outside
  the core's contract; a model refuses it" (R180). -/
  | programTooLong
  /-- `load_program` on a machine that is not newly created (R53, R202, R204, R213). Raised by
  `loadProgram` only. Safe: the spec gives the model no such transition. -/
  | loadAfterCreation
  deriving DecidableEq, Repr

/-- The machine right after creation: "all fields zeroed except `zf`" (R31, R200). -/
def State.reset : State where
  regA := 0x00#8
  regB := 0x00#8
  aluOut := 0x00#8
  cf := false
  zf := true
  pc := 0x00#8
  memory := []
  hlt := false
  tStep := 0#4
  ir := 0x00#8
  controlWord := ControlWord.zero
  mar := 0x00#8
  bus := 0x00#8
  output := 0x00#8

end Sys2Proof.Machine
end

