-- ==== Sys2Proof/Machine/Flags.lean ====
section
/-! DEFINITION. The arithmetic of the datapath and the flags (00_scope.md section 4; 41_datapath_apply.md
rules R101, R102; 43_arithmetic.md rule R138). Everything is unsigned and there is no carry-in. -/

namespace Sys2Proof.Machine

/-- `add8(a, b)`: the 8-bit sum and the carry out of bit 7 (00_scope.md section 4, R102). -/
def add8 (a b : Byte) : Byte × Bool :=
  (a + b, decide (255 < a.toNat + b.toNat))

/-- `sub8(a, b)`: the 8-bit difference and the borrow (00_scope.md section 4, R102). -/
def sub8 (a b : Byte) : Byte × Bool :=
  (a - b, decide (a.toNat < b.toNat))

/-- `inc8(a)`: the next 8-bit value, wrapping (00_scope.md section 4). -/
def inc8 (a : Byte) : Byte := a + 1#8

/-- The ALU: subtract when the subtract line is set, otherwise add (R12, R101). -/
def alu (su : Bool) (a b : Byte) : Byte × Bool :=
  if su then sub8 a b else add8 a b

/-- Step 1 of apply: `alu_out`, `cf` and `zf` from `reg_a` and `reg_b`, unconditionally (R101, R102). -/
def recompute (su : Bool) (s : State) : State :=
  { s with
    aluOut := (alu su s.regA s.regB).1
    cf := (alu su s.regA s.regB).2
    zf := (alu su s.regA s.regB).1 == 0x00#8 }

end Sys2Proof.Machine
end

