-- ==== Sys2Proof/Syntax.lean ====
section
/-! DEFINITION. The instructions of the R-SAP-1 core: one constructor per row of spec/opcode_table.json
(30_encoding.md rules R60 to R66). A primary instruction carries the low nibble `x` of its opcode byte,
which the decoder ignores (R65) but the instruction register keeps (R20). An operand byte is named by
its role (R62): `a` a data address, `k` an immediate datum, `t` a branch target. -/

namespace Sys2Proof

/-- The 31 instruction tags: 20 assigned instructions and the 11 unassigned opcodes (R2, R64, R66). -/
inductive Instr where
  /-- 0x0x: no operation (R160). -/
  | nop (x : Nibble)
  /-- 0x1x: load A from the address `a` (R121). -/
  | lda (x : Nibble) (a : Byte)
  /-- 0x2x: load A with the datum `k` (R122). -/
  | ldi (x : Nibble) (k : Byte)
  /-- 0x3x: load B from the address `a` (R123). -/
  | ldb (x : Nibble) (a : Byte)
  /-- 0x4x: load B with the datum `k` (R124). -/
  | lbi (x : Nibble) (k : Byte)
  /-- 0x5x: add the byte at `a` to A (R130). -/
  | add (x : Nibble) (a : Byte)
  /-- 0x6x: add the datum `k` to A (R131). -/
  | adi (x : Nibble) (k : Byte)
  /-- 0x7x: subtract the byte at `a` from A (R132). -/
  | sub (x : Nibble) (a : Byte)
  /-- 0x8x: subtract the datum `k` from A (R133). -/
  | sbi (x : Nibble) (k : Byte)
  /-- 0x9x: store A at the address `a` (R125). -/
  | sta (x : Nibble) (a : Byte)
  /-- 0xAx: jump to `t` (R150). -/
  | jmp (x : Nibble) (t : Byte)
  /-- 0xBx: compare A with the byte at `a` (R134). -/
  | cmp (x : Nibble) (a : Byte)
  /-- 0xCx: compare A with the datum `k` (R135). -/
  | cpi (x : Nibble) (k : Byte)
  /-- 0xDx: branch to `t` if the zero flag is clear (R151). -/
  | bnz (x : Nibble) (t : Byte)
  /-- 0xEx: jump to `t` if the zero flag is set (R152). -/
  | jz (x : Nibble) (t : Byte)
  /-- 0xF0: jump to `t` if the carry flag is set (R153). -/
  | jc (t : Byte)
  /-- 0xF1: increment the byte at `a` (R136). -/
  | inc (a : Byte)
  /-- 0xF2: decrement the byte at `a` (R137). -/
  | dec (a : Byte)
  /-- 0xF3: copy A to the output register (R161). -/
  | out
  /-- 0xFF: halt (R162). -/
  | hlt
  /-- 0xF4: unassigned, a no-operation (R66, R163). -/
  | unassignedF4
  /-- 0xF5: unassigned, a no-operation (R66, R163). -/
  | unassignedF5
  /-- 0xF6: unassigned, a no-operation (R66, R163). -/
  | unassignedF6
  /-- 0xF7: unassigned, a no-operation (R66, R163). -/
  | unassignedF7
  /-- 0xF8: unassigned, a no-operation (R66, R163). -/
  | unassignedF8
  /-- 0xF9: unassigned, a no-operation (R66, R163). -/
  | unassignedF9
  /-- 0xFA: unassigned, a no-operation (R66, R163). -/
  | unassignedFA
  /-- 0xFB: unassigned, a no-operation (R66, R163). -/
  | unassignedFB
  /-- 0xFC: unassigned, a no-operation (R66, R163). -/
  | unassignedFC
  /-- 0xFD: unassigned, a no-operation (R66, R163). -/
  | unassignedFD
  /-- 0xFE: unassigned, a no-operation (R66, R163). -/
  | unassignedFE
  deriving DecidableEq, Repr

end Sys2Proof
end

