-- ==== Sys2Proof/WellFormed.lean ====
section
/-! DEFINITION. The checks on terms that the machine's own types do not already make. An `Instr` carries
a nibble and a byte as bit vectors, and every value of either is legal (R62, R65, R67), so every term of
`Instr` is a well-formed instruction and statements quantify over all of them. What is left to check is
whether an instruction is in the form an assembler emits (R65) and whether an image fits (R53). -/

namespace Sys2Proof

/-- Every instruction is well formed: a low nibble and an operand byte may be anything (R62, R65, R67). -/
def Instr.wellFormed (_ : Instr) : Bool := true

/-- The canonical encoding, "which an assembler emits, has the low nibble 0" (R65). Extended opcodes
have one encoding each. -/
def Instr.canonical : Instr → Bool
  | .nop x => x == 0x0#4
  | .lda x _ => x == 0x0#4
  | .ldi x _ => x == 0x0#4
  | .ldb x _ => x == 0x0#4
  | .lbi x _ => x == 0x0#4
  | .add x _ => x == 0x0#4
  | .adi x _ => x == 0x0#4
  | .sub x _ => x == 0x0#4
  | .sbi x _ => x == 0x0#4
  | .sta x _ => x == 0x0#4
  | .jmp x _ => x == 0x0#4
  | .cmp x _ => x == 0x0#4
  | .cpi x _ => x == 0x0#4
  | .bnz x _ => x == 0x0#4
  | .jz x _ => x == 0x0#4
  | .jc _ => true
  | .inc _ => true
  | .dec _ => true
  | .out => true
  | .unassignedF4 => true
  | .unassignedF5 => true
  | .unassignedF6 => true
  | .unassignedF7 => true
  | .unassignedF8 => true
  | .unassignedF9 => true
  | .unassignedFA => true
  | .unassignedFB => true
  | .unassignedFC => true
  | .unassignedFD => true
  | .unassignedFE => true
  | .hlt => true

/-- A program image fits in memory: "caller guarantees length ≤ 256" (R53, R183). -/
def imageFits (image : List Byte) : Bool := image.length ≤ Config.memorySize

end Sys2Proof
end

