-- ==== Sys2Proof/Decode.lean ====
section
/-! DEFINITION. The instruction selector, the decoder, the encoder and the assembler (30_encoding.md rules R60 to R69).
The decoder is total on opcode bytes: "every one of the 256 byte values decodes" (R67). What it rejects,
by name, is a list of bytes that ends before the instruction does. -/

namespace Sys2Proof

/-- The opcode byte with high nibble `op` and low nibble `sub` (R60). -/
def opcodeByte (op sub : Nibble) : Byte := op ++ sub

/-- `ir[7:4]`, the primary opcode (R60). -/
def highNibble (b : Byte) : Nibble := b.extractLsb' 4 4

/-- `ir[3:0]`, the extended opcode when the primary opcode is 0xF (R60). -/
def lowNibble (b : Byte) : Nibble := b.extractLsb' 0 4

/-- The 5-bit instruction selector `sel(ir)` (R63). -/
def sel (b : Byte) : Selector :=
  if highNibble b = 0xF#4 then 0b1#1 ++ lowNibble b else 0b0#1 ++ highNibble b

/-- How many bytes an instruction occupies, a function of its opcode byte alone: 1 when the selector
is 0x00 or 0x13 to 0x1F, else 2 (R61, R68). -/
def instrLength (op : Byte) : Nat :=
  if sel op = 0x00#5 ∨ 0x13#5 ≤ sel op then 1 else 2

/-- The extended instruction that the low nibble of an opcode byte 0xFs selects, with the operand byte
`d` (R64, R66). The four arguments are bits 3 to 0 of the opcode byte. -/
def decodeExtended (d : Byte) : Bool → Bool → Bool → Bool → Instr
  | false, false, false, false => .jc d
  | false, false, false, true => .inc d
  | false, false, true, false => .dec d
  | false, false, true, true => .out
  | false, true, false, false => .unassignedF4
  | false, true, false, true => .unassignedF5
  | false, true, true, false => .unassignedF6
  | false, true, true, true => .unassignedF7
  | true, false, false, false => .unassignedF8
  | true, false, false, true => .unassignedF9
  | true, false, true, false => .unassignedFA
  | true, false, true, true => .unassignedFB
  | true, true, false, false => .unassignedFC
  | true, true, false, true => .unassignedFD
  | true, true, true, false => .unassignedFE
  | true, true, true, true => .hlt

/-- The instruction with opcode byte `op` whose next byte is `d`, branching "on the instruction
register's high nibble" with 0xF as the escape (R64 to R68, R86). A one-byte instruction ignores `d`. -/
def decodePair (op d : Byte) : Instr :=
  match op.getLsbD 7, op.getLsbD 6, op.getLsbD 5, op.getLsbD 4 with
  | false, false, false, false => .nop (lowNibble op)
  | false, false, false, true => .lda (lowNibble op) d
  | false, false, true, false => .ldi (lowNibble op) d
  | false, false, true, true => .ldb (lowNibble op) d
  | false, true, false, false => .lbi (lowNibble op) d
  | false, true, false, true => .add (lowNibble op) d
  | false, true, true, false => .adi (lowNibble op) d
  | false, true, true, true => .sub (lowNibble op) d
  | true, false, false, false => .sbi (lowNibble op) d
  | true, false, false, true => .sta (lowNibble op) d
  | true, false, true, false => .jmp (lowNibble op) d
  | true, false, true, true => .cmp (lowNibble op) d
  | true, true, false, false => .cpi (lowNibble op) d
  | true, true, false, true => .bnz (lowNibble op) d
  | true, true, true, false => .jz (lowNibble op) d
  | true, true, true, true =>
    decodeExtended d (op.getLsbD 3) (op.getLsbD 2) (op.getLsbD 1) (op.getLsbD 0)

/-- Why a list of bytes holds no whole instruction. No opcode byte is itself rejected (R67). -/
inductive DecodeError where
  /-- The list is empty. Raised by `decode` only; safe, the machine's own fetch never runs out of bytes. -/
  | missingOpcode
  /-- The opcode byte `op` starts a two-byte instruction and no byte follows. Raised by `decode` only;
  safe, for the same reason. -/
  | missingOperand (op : Byte)
  deriving DecidableEq, Repr

/-- Reads one instruction from the front of a list of bytes, lowest address first, and gives the bytes
left over (R47, R60). -/
def decode : List Byte → Except DecodeError (Instr × List Byte)
  | [] => .error .missingOpcode
  | op :: rest =>
    if instrLength op = 1 then .ok (decodePair op 0x00#8, rest)
    else
      match rest with
      | [] => .error (.missingOperand op)
      | d :: rest' => .ok (decodePair op d, rest')

/-- The opcode byte of an instruction, written from the opcode map of rule R64. -/
def Instr.opcode : Instr → Byte
  | .nop x => opcodeByte 0x0#4 x
  | .lda x _ => opcodeByte 0x1#4 x
  | .ldi x _ => opcodeByte 0x2#4 x
  | .ldb x _ => opcodeByte 0x3#4 x
  | .lbi x _ => opcodeByte 0x4#4 x
  | .add x _ => opcodeByte 0x5#4 x
  | .adi x _ => opcodeByte 0x6#4 x
  | .sub x _ => opcodeByte 0x7#4 x
  | .sbi x _ => opcodeByte 0x8#4 x
  | .sta x _ => opcodeByte 0x9#4 x
  | .jmp x _ => opcodeByte 0xA#4 x
  | .cmp x _ => opcodeByte 0xB#4 x
  | .cpi x _ => opcodeByte 0xC#4 x
  | .bnz x _ => opcodeByte 0xD#4 x
  | .jz x _ => opcodeByte 0xE#4 x
  | .jc _ => 0xF0#8
  | .inc _ => 0xF1#8
  | .dec _ => 0xF2#8
  | .out => 0xF3#8
  | .unassignedF4 => 0xF4#8
  | .unassignedF5 => 0xF5#8
  | .unassignedF6 => 0xF6#8
  | .unassignedF7 => 0xF7#8
  | .unassignedF8 => 0xF8#8
  | .unassignedF9 => 0xF9#8
  | .unassignedFA => 0xFA#8
  | .unassignedFB => 0xFB#8
  | .unassignedFC => 0xFC#8
  | .unassignedFD => 0xFD#8
  | .unassignedFE => 0xFE#8
  | .hlt => 0xFF#8

/-- The operand byte of a two-byte instruction, none for a one-byte one (R61, R62). -/
def Instr.operand : Instr → Option Byte
  | .nop _ => none
  | .lda _ a => some a
  | .ldi _ k => some k
  | .ldb _ a => some a
  | .lbi _ k => some k
  | .add _ a => some a
  | .adi _ k => some k
  | .sub _ a => some a
  | .sbi _ k => some k
  | .sta _ a => some a
  | .jmp _ t => some t
  | .cmp _ a => some a
  | .cpi _ k => some k
  | .bnz _ t => some t
  | .jz _ t => some t
  | .jc t => some t
  | .inc a => some a
  | .dec a => some a
  | .out => none
  | .unassignedF4 => none
  | .unassignedF5 => none
  | .unassignedF6 => none
  | .unassignedF7 => none
  | .unassignedF8 => none
  | .unassignedF9 => none
  | .unassignedFA => none
  | .unassignedFB => none
  | .unassignedFC => none
  | .unassignedFD => none
  | .unassignedFE => none
  | .hlt => none

/-- The bytes of an instruction, opcode byte first (R47, R60). -/
def encode (i : Instr) : List Byte := i.opcode :: i.operand.toList

/-- The two bytes of the opcode-table word `w` of `nbits` bits: bit 0 of `w` is bit 0 of the opcode
byte, bit 8 is bit 0 of the next byte, and every bit from `nbits` up is 0. -/
def tableWordBytes (nbits w : Nat) : Byte × Byte :=
  (BitVec.ofNat 8 (w % 2 ^ nbits), BitVec.ofNat 8 (w % 2 ^ nbits / 256))

/-- The instruction the decoder reads from an instruction whose bits are `w`. -/
def decodeTableWord (nbits w : Nat) : Option Instr :=
  match decode [(tableWordBytes nbits w).1, (tableWordBytes nbits w).2] with
  | .ok (i, _) => some i
  | .error _ => none

/-! ### Assembly (R69) -/

/-- The instruction with the low nibble that an assembler emits for a primary opcode, 0 (R65, R69). -/
def Instr.toCanonical : Instr → Instr
  | .nop _ => .nop 0x0#4
  | .lda _ a => .lda 0x0#4 a
  | .ldi _ k => .ldi 0x0#4 k
  | .ldb _ a => .ldb 0x0#4 a
  | .lbi _ k => .lbi 0x0#4 k
  | .add _ a => .add 0x0#4 a
  | .adi _ k => .adi 0x0#4 k
  | .sub _ a => .sub 0x0#4 a
  | .sbi _ k => .sbi 0x0#4 k
  | .sta _ a => .sta 0x0#4 a
  | .jmp _ t => .jmp 0x0#4 t
  | .cmp _ a => .cmp 0x0#4 a
  | .cpi _ k => .cpi 0x0#4 k
  | .bnz _ t => .bnz 0x0#4 t
  | .jz _ t => .jz 0x0#4 t
  | .jc t => .jc t
  | .inc a => .inc a
  | .dec a => .dec a
  | .out => .out
  | .unassignedF4 => .unassignedF4
  | .unassignedF5 => .unassignedF5
  | .unassignedF6 => .unassignedF6
  | .unassignedF7 => .unassignedF7
  | .unassignedF8 => .unassignedF8
  | .unassignedF9 => .unassignedF9
  | .unassignedFA => .unassignedFA
  | .unassignedFB => .unassignedFB
  | .unassignedFC => .unassignedFC
  | .unassignedFD => .unassignedFD
  | .unassignedFE => .unassignedFE
  | .hlt => .hlt

/-- An instruction in the syntax of R69: `[a]` an address, `#k` a datum, a bare target, and `.byte v` for
an unassigned opcode, which has no mnemonic. Numbers are written in decimal. -/
def Instr.assembly : Instr → String
  | .nop _ => "NOP"
  | .lda _ a => "LDA [" ++ toString a.toNat ++ "]"
  | .ldi _ k => "LDI #" ++ toString k.toNat
  | .ldb _ a => "LDB [" ++ toString a.toNat ++ "]"
  | .lbi _ k => "LBI #" ++ toString k.toNat
  | .add _ a => "ADD [" ++ toString a.toNat ++ "]"
  | .adi _ k => "ADI #" ++ toString k.toNat
  | .sub _ a => "SUB [" ++ toString a.toNat ++ "]"
  | .sbi _ k => "SBI #" ++ toString k.toNat
  | .sta _ a => "STA [" ++ toString a.toNat ++ "]"
  | .jmp _ t => "JMP " ++ toString t.toNat
  | .cmp _ a => "CMP [" ++ toString a.toNat ++ "]"
  | .cpi _ k => "CPI #" ++ toString k.toNat
  | .bnz _ t => "BNZ " ++ toString t.toNat
  | .jz _ t => "JZ " ++ toString t.toNat
  | .jc t => "JC " ++ toString t.toNat
  | .inc a => "INC [" ++ toString a.toNat ++ "]"
  | .dec a => "DEC [" ++ toString a.toNat ++ "]"
  | .out => "OUT"
  | .unassignedF4 => ".byte 244"
  | .unassignedF5 => ".byte 245"
  | .unassignedF6 => ".byte 246"
  | .unassignedF7 => ".byte 247"
  | .unassignedF8 => ".byte 248"
  | .unassignedF9 => ".byte 249"
  | .unassignedFA => ".byte 250"
  | .unassignedFB => ".byte 251"
  | .unassignedFC => ".byte 252"
  | .unassignedFD => ".byte 253"
  | .unassignedFE => ".byte 254"
  | .hlt => "HLT"

/-- A line of assembly: an instruction, a literal byte, or the address of the next byte (R69). -/
inductive AsmLine where
  | instr (i : Instr)
  | byte (v : Byte)
  | org (a : Byte)
  deriving DecidableEq, Repr

/-- Puts a byte at an index of an image, the gap up to it filled with 0x00 (R202: "gaps are filled by the
author, conventionally with 0x00"). -/
def placeByte (image : List Byte) (n : Nat) (v : Byte) : List Byte :=
  if n < image.length then image.set n v
  else image ++ List.replicate (n - image.length) 0x00#8 ++ [v]

/-- Puts bytes at consecutive indices of an image. -/
def placeBytes : List Byte → Nat → List Byte → List Byte
  | image, _, [] => image
  | image, n, v :: rest => placeBytes (placeByte image n v) (n + 1) rest

/-- Assembles the lines onto an image, the next byte going to the index `n`. A byte placed where the image
has one already replaces it (log entry 11). -/
def assembleFrom : List AsmLine → Nat → List Byte → List Byte
  | [], _, image => image
  | .instr i :: rest, n, image =>
    assembleFrom rest (n + (encode i.toCanonical).length) (placeBytes image n (encode i.toCanonical))
  | .byte v :: rest, n, image => assembleFrom rest (n + 1) (placeByte image n v)
  | .org a :: rest, _, image => assembleFrom rest a.toNat image

/-- The program image of an assembly text, from address 0. An image that runs past address 0xFF is longer
than 256 bytes, and `loadProgram` refuses it (R53). -/
def assemble (lines : List AsmLine) : List Byte := assembleFrom lines 0 []

end Sys2Proof
end

