-- ==== Sys2Proof/Machine/Microcode.lean ====
section
/-! DEFINITION. The control-signal decoder as a microcode ROM (40_sequencer_and_decoder.md rules R83 to
R94; 46_microcode_rom_listing.md rules R170 to R173): a pure, total function of the instruction
register, the microstep and the two flags. -/

namespace Sys2Proof.Machine

/-- The execute microsteps of a selector, from microstep 2 on: one row of the table of rule R171. The
branch rows carry the flag-gate of rule R91. -/
def executeRow (cf zf : Bool) (selector : Selector) : List ControlWord :=
  match selector.toNat with
  | 0x00 => [.stepReset]
  | 0x01 => [.miCo, .miRoCe, .roAi, .stepReset]
  | 0x02 => [.miCo, .roAiCe, .stepReset]
  | 0x03 => [.miCo, .miRoCe, .roBi, .stepReset]
  | 0x04 => [.miCo, .roBiCe, .stepReset]
  | 0x05 => [.miCo, .miRoCe, .roBi, .aiEo, .stepReset]
  | 0x06 => [.miCo, .roBiCe, .aiEo, .stepReset]
  | 0x07 => [.miCo, .miRoCe, .roBi, .aiEoSu, .stepReset]
  | 0x08 => [.miCo, .roBiCe, .aiEoSu, .stepReset]
  | 0x09 => [.miCo, .miRoCe, .riAo, .stepReset]
  | 0x0A => [.miCo, .roJ true, .stepReset]
  | 0x0B => [.miCo, .miRoCe, .roBi, .srSu]
  | 0x0C => [.miCo, .roBiCe, .srSu]
  | 0x0D => [.miCo, .roJ (!zf), .stepReset]
  | 0x0E => [.miCo, .roJ zf, .stepReset]
  | 0x0F => [.stepReset]
  | 0x10 => [.miCo, .roJ cf, .stepReset]
  | 0x11 => [.miCo, .miRoCe, .roAi, .biK1, .riEo, .stepReset]
  | 0x12 => [.miCo, .miRoCe, .roAi, .biK1, .riEoSu, .stepReset]
  | 0x13 => [.aoOi, .stepReset]
  | 0x14 => [.stepReset]
  | 0x15 => [.stepReset]
  | 0x16 => [.stepReset]
  | 0x17 => [.stepReset]
  | 0x18 => [.stepReset]
  | 0x19 => [.stepReset]
  | 0x1A => [.stepReset]
  | 0x1B => [.stepReset]
  | 0x1C => [.stepReset]
  | 0x1D => [.stepReset]
  | 0x1E => [.stepReset]
  | 0x1F => [.halt, .stepReset]
  | _ => []

/-- `N`, the number of execute microsteps of a selector (R64, R171). -/
def executeSteps (selector : Selector) : Nat := (executeRow false false selector).length

/-- `rom(cf, zf, sel, t)`: the two fetch microsteps, then the selector's row, then `SR` for every input
the row does not reach (R84, R85, R86, R90, R170). -/
def rom (cf zf : Bool) (selector : Selector) (t : Microstep) : ControlWord :=
  match t.toNat with
  | 0 => .miCo
  | 1 => .roIiCe
  | k + 2 => (executeRow cf zf selector).getD k .stepReset

/-- `decode(ir, t_step, cf, zf)`: of `ir` only the selector is used (R83). -/
def decodeControl (ir : Byte) (t : Microstep) (cf zf : Bool) : ControlWord :=
  rom cf zf (sel ir) t

/-- The ROM as a memory of 2048 words: `cf`, `zf`, `sel`, `t_step` from the top bit down (R94, R173). -/
def romWord (address : BitVec 11) : BitVec 17 :=
  (rom (address.getLsbD 10) (address.getLsbD 9) (address.extractLsb' 4 5)
    (address.extractLsb' 0 4)).toBits

/-- The rows that `INCDEC_REALISATION = refuse` leaves without a meaning: selectors 0x11 and 0x12 from
microstep 2 on (R8, R171). -/
def unrealised (p : IncDecRealisation) (selector : Selector) (t : Microstep) : Bool :=
  p == .refuse && (selector == 0x11#5 || selector == 0x12#5) && 2 ≤ t.toNat

/-- The ROM under a value of `INCDEC_REALISATION`: it holds no word in the rows left without a meaning
(R8, R171). -/
def romAs (p : IncDecRealisation) (cf zf : Bool) (selector : Selector) (t : Microstep) :
    Option ControlWord :=
  if unrealised p selector t then none else some (rom cf zf selector t)

/-- `decode(ir, t_step, cf, zf)` under a value of `INCDEC_REALISATION` (R8, R83). -/
def decodeControlAs (p : IncDecRealisation) (ir : Byte) (t : Microstep) (cf zf : Bool) :
    Option ControlWord :=
  romAs p cf zf (sel ir) t

end Sys2Proof.Machine
end

