-- ==== Sys2Proof/Machine/Ops.lean ====
section
/-! DEFINITION. The named operations: memory, the seven steps of the signal interpreter, the tick, the end
of an instruction cycle, and the host's operations (20_memory.md; 40_sequencer_and_decoder.md;
41_datapath_apply.md; 70_reset_and_hazards.md).

There is no operation that takes an exception and none that returns from one: "There is no trap entry: no
state is saved, no vector table, no handler address, no mode change" (R186, R187). -/

namespace Sys2Proof.Machine

/-! ### Memory -/

/-- The byte that the cells hold for the address number `n`. -/
def Memory.lookup : Memory → Nat → Byte
  | [], _ => Memory.unlisted
  | (k, v) :: rest, n => if k = n then v else Memory.lookup rest n

/-- `MemRead(addr, 1)`: one byte, no side effect, never fails (R9, R43, R45). -/
def Memory.read (m : Memory) (a : Byte) : Byte := Memory.lookup m a.toNat

/-- Puts a cell in its place among rising addresses. -/
def Memory.place : Memory → Nat → Byte → Memory
  | [], n, v => [(n, v)]
  | (k, w) :: rest, n, v => if n < k then (n, v) :: (k, w) :: rest else (k, w) :: Memory.place rest n v

/-- `MemWrite(addr, 1, v)`: one byte, never fails (R9, R44, R45). A byte written to the value that an
unlisted address reads as is unlisted, which keeps the canonical form. -/
def Memory.write (m : Memory) (a v : Byte) : Memory :=
  let others := m.filter (fun c => c.1 != a.toNat)
  if v = Memory.unlisted then others else Memory.place others a.toNat v

/-- Copies bytes to consecutive addresses from the address number `n` up (R53). -/
def Memory.writeAll : Memory → Nat → List Byte → Memory
  | m, _, [] => m
  | m, n, b :: rest => Memory.writeAll (Memory.write m (BitVec.ofNat 8 n) b) (n + 1) rest

/-! ### The signal interpreter: the seven steps of `apply`, in their fixed order (R100) -/

/-- Step 2: drive the bus. The last asserted of CO, RO, AO, EO, K1 wins, and with none the bus keeps its
value (R103, R104, R105, R112). -/
def driveBus (w : ControlWord) (s : State) : State :=
  { s with
    bus :=
      if w.k1 then 0x01#8
      else if w.eo then s.aluOut
      else if w.ao then s.regA
      else if w.ro then s.memory.read s.mar
      else if w.co then s.pc
      else s.bus }

/-- Step 3: latch the bus into `mar`, `memory[mar]`, `ir`, `reg_a`, `reg_b` and `output`. A word with MI
and RI writes at the new `mar` (R106, R107). -/
def latchInputs (w : ControlWord) (s : State) : State :=
  let mar' := if w.mi then s.bus else s.mar
  { s with
    mar := mar'
    memory := if w.ri then s.memory.write mar' s.bus else s.memory
    ir := if w.ii then s.bus else s.ir
    regA := if w.ai then s.bus else s.regA
    regB := if w.bi then s.bus else s.regB
    output := if w.oi then s.bus else s.output }

/-- Step 4: counter enable (R108). -/
def countUp (w : ControlWord) (s : State) : State :=
  { s with pc := if w.ce then inc8 s.pc else s.pc }

/-- Step 5: jump, to the bus when the flag-gate holds and to the next address when it does not (R109). -/
def jump (w : ControlWord) (s : State) : State :=
  { s with pc := if w.j then (if w.fg then s.bus else inc8 s.pc) else s.pc }

/-- Step 6: step reset (R110). -/
def stepResetStage (w : ControlWord) (s : State) : State :=
  { s with tStep := if w.sr then 0#4 else s.tStep }

/-- Step 7: halt (R111). -/
def haltStage (w : ControlWord) (s : State) : State :=
  { s with hlt := if w.hlt then true else s.hlt }

/-- `apply(cw)`: the seven steps, each reading the state as the earlier ones left it (R100). -/
def applyWord (w : ControlWord) (s : State) : State :=
  haltStage w (stepResetStage w (jump w (countUp w (latchInputs w (driveBus w (recompute w.su s))))))

/-! ### The tick -/

/-- A tick of a machine that is not halted, under the control word `w` (R80, R82, R113). -/
def tickWith (w : ControlWord) (s : State) : State :=
  { applyWord w { s with tStep := s.tStep + 1#4 } with controlWord := w }

/-- The control word the next tick decodes: from `ir`, `t_step` and the flags as they stand at the start
of the tick (R80, R82, R83). -/
def nextWord (s : State) : ControlWord := decodeControl s.ir s.tStep s.cf s.zf

/-- `tick()` under a value of `INCDEC_REALISATION`. A halted machine does not change (R81); under
`refuse` the tick that would decode microstep 2 of INC or DEC is refused (R8). -/
def tickAs (p : IncDecRealisation) (s : State) : Host.Outcome State Fault Refusal :=
  if s.hlt then .next s
  else
    match decodeControlAs p s.ir s.tStep s.cf s.zf with
    | some w => .next (tickWith w s)
    | none => .refused .incDecNotRealised

/-- `tick()`: "advances the machine by exactly one microstep" (R80). -/
def tick (s : State) : Host.Outcome State Fault Refusal := tickAs Config.incDecRealisation s

/-- `n` ticks, one after another, under a value of `INCDEC_REALISATION`; a refused tick ends them (R8,
R80, R216). -/
def runTicksAs (p : IncDecRealisation) : Nat → State → Host.Outcome State Fault Refusal
  | 0, s => .next s
  | n + 1, s =>
    match tickAs p s with
    | .next s' => runTicksAs p n s'
    | .fault r => .fault r
    | .refused r => .refused r

/-- `n` ticks, one after another (R80, R216). -/
def runTicks (n : Nat) (s : State) : Host.Outcome State Fault Refusal :=
  runTicksAs Config.incDecRealisation n s

/-- The longest instruction cycle, in ticks (R95, R97, R215). -/
def longestCycle : Nat := 8

/-- Ticks until the machine is at an instruction boundary or halted, at most `n` of them, under a value
of `INCDEC_REALISATION`. -/
def ticksToBoundaryAs (p : IncDecRealisation) : Nat → State → Host.Outcome State Fault Refusal
  | 0, s => .next s
  | n + 1, s =>
    match tickAs p s with
    | .next s' => if s'.tStep = 0#4 ∨ s'.hlt = true then .next s' else ticksToBoundaryAs p n s'
    | .fault r => .fault r
    | .refused r => .refused r

/-- Ticks until the machine is at an instruction boundary or halted, at most `n` of them. -/
def ticksToBoundary (n : Nat) (s : State) : Host.Outcome State Fault Refusal :=
  ticksToBoundaryAs Config.incDecRealisation n s

/-- Completes an instruction cycle that is under way, under a value of `INCDEC_REALISATION`: a cycle is
at most `longestCycle` ticks (R8, R95, R97). -/
def finishCycleAs (p : IncDecRealisation) (s : State) : Host.Outcome State Fault Refusal :=
  ticksToBoundaryAs p longestCycle s

/-- Completes an instruction cycle that is under way: a cycle is at most `longestCycle` ticks (R95, R97). -/
def finishCycle (s : State) : Host.Outcome State Fault Refusal :=
  finishCycleAs Config.incDecRealisation s

/-! ### The instruction cycle as a whole -/

/-- The state an instruction cycle leaves behind, given the state `s` whose registers and memory the
cycle has already updated: `op` in the instruction register, `mar`, `bus` and `pc` as the instruction's
rule says, and the last microstep's word `w` applied, which recomputes the ALU and the flags and resets
the microstep counter (R114, R120). -/
def endCycle (w : ControlWord) (op mar bus pc : Byte) (s : State) : State :=
  recompute w.su
    { s with ir := op, mar := mar, bus := bus, pc := pc, tStep := 0#4, controlWord := w }

/-- A one-byte instruction that does nothing beyond its fetch, with opcode byte `op` (R160, R163). -/
def noOperation (op : Byte) (s : State) : State :=
  endCycle .stepReset op s.pc op (inc8 s.pc) s

/-! ### The host's operations (R216) -/

/-- `load_program(bytes)`: one bulk write to memory from address 0, on a newly created machine only
(R53, R202, R213). A machine that has ticked is not `State.reset`: its `control_word` is not zero. -/
def loadProgram (image : List Byte) (s : State) : Host.Outcome State Fault Refusal :=
  if imageFits image then
    if s = State.reset then .next { s with memory := Memory.writeAll s.memory 0 image }
    else .refused .loadAfterCreation
  else .refused .programTooLong

/-- The opcode byte and the byte after it, at `pc` and `inc8(pc)` (R47, R52). -/
def fetchBytes (s : State) : Byte × Byte := (s.memory.read s.pc, s.memory.read (inc8 s.pc))

/-- The instruction at the program counter (R67, R85). -/
def fetchInstr (s : State) : Instr := decodePair (fetchBytes s).1 (fetchBytes s).2

/-- The machine at an instruction boundary and running, with the table word `w` of `nbits` bits at the
program counter: its two bytes are placed at `pc` and `inc8(pc)`, nothing else but `t_step` and `hlt`
changes, and those only to the values a fetch starts from (log entry 3). -/
def placeTableWord (s : State) (nbits w : Nat) : State :=
  let bytes := tableWordBytes nbits w
  { s with
    memory := (s.memory.write s.pc bytes.1).write (inc8 s.pc) bytes.2
    tStep := 0#4
    hlt := false }

end Sys2Proof.Machine
end

