-- ==== Sys2Proof/Machine/Operands.lean ====
section
/-! DEFINITION. The operand forms (30_encoding.md rules R61, R62) and where they leave `mar` and `pc`. The
operand byte itself is a field of the instruction; its three roles are an immediate datum (the byte
itself), a data address and a branch target (the byte itself). -/

namespace Sys2Proof.Machine

/-- The address of the operand byte, `inc8(p)`: what `mar` holds after the immediate and branch forms
(R47, R122, R150). -/
def operandAddress (s : State) : Byte := inc8 s.pc

/-- The program counter after a one-byte instruction (R160). -/
def afterOne (s : State) : Byte := inc8 s.pc

/-- The program counter after a two-byte instruction that does not branch: `(p + 2) mod 256` (R121). -/
def afterTwo (s : State) : Byte := inc8 (inc8 s.pc)

/-- The datum of the address form, `memory[d8]` (R62). -/
def datumAt (a : Byte) (s : State) : Byte := s.memory.read a

/-- The carry that a branch finds in `cf` at its microstep 3: that of `reg_a + reg_b` (R92, R154). -/
def branchCarry (s : State) : Bool := (add8 s.regA s.regB).2

/-- The zero flag that a branch finds at its microstep 3: that of `reg_a + reg_b` (R92, R154). -/
def branchZero (s : State) : Bool := (add8 s.regA s.regB).1 == 0x00#8

/-- Where a branch leaves the program counter: at its target if the flag-gate holds, else past its
operand byte (R109). -/
def branchTo (gate : Bool) (target : Byte) (s : State) : Byte :=
  if gate then target else afterTwo s

end Sys2Proof.Machine
end

