-- ==== Sys2Proof/Machine/Arithmetic.lean ====
section
/-! DEFINITION. Arithmetic and compare: ADD, ADI, SUB, SBI, CMP, CPI, INC, DEC (43_arithmetic.md rules R130
to R140). Each meaning is the net effect of one whole instruction cycle (R120). The datum always goes
through B and stays there (R139), and the flags at the boundary are those of the last microstep, not
those of the operation (R114, R140). -/

namespace Sys2Proof.Machine

/-- ADD: `reg_a <- reg_a + memory[a]`, `reg_b <- memory[a]` (R130). -/
def execAdd (x : Nibble) (a : Byte) (s : State) : Host.Outcome State Fault Refusal :=
  let m := datumAt a s
  let r := (add8 s.regA m).1
  .next (endCycle .stepReset (opcodeByte 0x5#4 x) a r (afterTwo s) { s with regA := r, regB := m })

/-- ADI: `reg_a <- reg_a + k`, `reg_b <- k` (R131). -/
def execAdi (x : Nibble) (k : Byte) (s : State) : Host.Outcome State Fault Refusal :=
  let r := (add8 s.regA k).1
  .next (endCycle .stepReset (opcodeByte 0x6#4 x) (operandAddress s) r (afterTwo s)
    { s with regA := r, regB := k })

/-- SUB: `reg_a <- reg_a - memory[a]`, `reg_b <- memory[a]`; the last microstep adds (R132). -/
def execSub (x : Nibble) (a : Byte) (s : State) : Host.Outcome State Fault Refusal :=
  let m := datumAt a s
  let r := (sub8 s.regA m).1
  .next (endCycle .stepReset (opcodeByte 0x7#4 x) a r (afterTwo s) { s with regA := r, regB := m })

/-- SBI: `reg_a <- reg_a - k`, `reg_b <- k`; the last microstep adds (R133). -/
def execSbi (x : Nibble) (k : Byte) (s : State) : Host.Outcome State Fault Refusal :=
  let r := (sub8 s.regA k).1
  .next (endCycle .stepReset (opcodeByte 0x8#4 x) (operandAddress s) r (afterTwo s)
    { s with regA := r, regB := k })

/-- CMP: `reg_b <- memory[a]`, and the last microstep, `SR+SU`, sets the flags of `reg_a - memory[a]`
(R134). -/
def execCmp (x : Nibble) (a : Byte) (s : State) : Host.Outcome State Fault Refusal :=
  let m := datumAt a s
  .next (endCycle .srSu (opcodeByte 0xB#4 x) a m (afterTwo s) { s with regB := m })

/-- CPI: `reg_b <- k`, and the last microstep, `SR+SU`, sets the flags of `reg_a - k` (R135). -/
def execCpi (x : Nibble) (k : Byte) (s : State) : Host.Outcome State Fault Refusal :=
  .next (endCycle .srSu (opcodeByte 0xC#4 x) (operandAddress s) k (afterTwo s) { s with regB := k })

/-- INC under a value of `INCDEC_REALISATION`: with `k1`, `memory[a] <- memory[a] + 1`, the old byte is
left in A and 0x01 in B (R136); with `refuse`, refused (R8). -/
def execIncAs (p : IncDecRealisation) (a : Byte) (s : State) : Host.Outcome State Fault Refusal :=
  match p with
  | .refuse => .refused .incDecNotRealised
  | .k1 =>
    let m := datumAt a s
    let r := (add8 m 0x01#8).1
    .next (endCycle .stepReset 0xF1#8 a r (afterTwo s)
      { s with regA := m, regB := 0x01#8, memory := s.memory.write a r })

/-- INC (R136). -/
def execInc (a : Byte) (s : State) : Host.Outcome State Fault Refusal :=
  execIncAs Config.incDecRealisation a s

/-- DEC under a value of `INCDEC_REALISATION`: with `k1`, `memory[a] <- memory[a] - 1`, the old byte is
left in A and 0x01 in B, and the last microstep adds (R137); with `refuse`, refused (R8). -/
def execDecAs (p : IncDecRealisation) (a : Byte) (s : State) : Host.Outcome State Fault Refusal :=
  match p with
  | .refuse => .refused .incDecNotRealised
  | .k1 =>
    let m := datumAt a s
    let r := (sub8 m 0x01#8).1
    .next (endCycle .stepReset 0xF2#8 a r (afterTwo s)
      { s with regA := m, regB := 0x01#8, memory := s.memory.write a r })

/-- DEC (R137). -/
def execDec (a : Byte) (s : State) : Host.Outcome State Fault Refusal :=
  execDecAs Config.incDecRealisation a s

end Sys2Proof.Machine
end

