-- ==== Sys2Proof/Machine/ControlTransfer.lean ====
section
/-! DEFINITION. The control-transfer instructions JMP, BNZ, JZ, JC (44_control_transfer.md rules R150 to
R155). They differ in the flag-gate only (R91), and the flags they test are those of `reg_a + reg_b`
(R154). -/

namespace Sys2Proof.Machine

/-- The cycle all four share: the operand byte `t` is read whether or not the branch is taken (R46), and
`pc` goes where the gate says. -/
def branchCycle (op : Byte) (gate : Bool) (t : Byte) (s : State) : State :=
  endCycle .stepReset op (operandAddress s) t (branchTo gate t s) s

/-- JMP: `pc <- t` (R150). -/
def execJmp (x : Nibble) (t : Byte) (s : State) : Host.Outcome State Fault Refusal :=
  .next (branchCycle (opcodeByte 0xA#4 x) true t s)

/-- BNZ: `pc <- t` if `zf` is clear at microstep 3 (R151). -/
def execBnz (x : Nibble) (t : Byte) (s : State) : Host.Outcome State Fault Refusal :=
  .next (branchCycle (opcodeByte 0xD#4 x) (!branchZero s) t s)

/-- JZ: `pc <- t` if `zf` is set at microstep 3 (R152). -/
def execJz (x : Nibble) (t : Byte) (s : State) : Host.Outcome State Fault Refusal :=
  .next (branchCycle (opcodeByte 0xE#4 x) (branchZero s) t s)

/-- JC: `pc <- t` if `cf` is set at microstep 3 (R153). -/
def execJc (t : Byte) (s : State) : Host.Outcome State Fault Refusal :=
  .next (branchCycle 0xF0#8 (branchCarry s) t s)

end Sys2Proof.Machine
end

