-- ==== Sys2Proof/Machine/LoadStore.lean ====
section
/-! DEFINITION. The loads and the store: LDA, LDI, LDB, LBI, STA (42_load_store.md rules R121 to R125). Each
meaning is the net effect of one whole instruction cycle, from an instruction boundary with the opcode
byte at `pc` to the next boundary (R120). -/

namespace Sys2Proof.Machine

/-- LDA: `reg_a <- memory[a]` (R121). -/
def execLda (x : Nibble) (a : Byte) (s : State) : Host.Outcome State Fault Refusal :=
  let v := datumAt a s
  .next (endCycle .stepReset (opcodeByte 0x1#4 x) a v (afterTwo s) { s with regA := v })

/-- LDI: `reg_a <- k` (R122). -/
def execLdi (x : Nibble) (k : Byte) (s : State) : Host.Outcome State Fault Refusal :=
  .next (endCycle .stepReset (opcodeByte 0x2#4 x) (operandAddress s) k (afterTwo s)
    { s with regA := k })

/-- LDB: `reg_b <- memory[a]` (R123). -/
def execLdb (x : Nibble) (a : Byte) (s : State) : Host.Outcome State Fault Refusal :=
  let v := datumAt a s
  .next (endCycle .stepReset (opcodeByte 0x3#4 x) a v (afterTwo s) { s with regB := v })

/-- LBI: `reg_b <- k` (R124). -/
def execLbi (x : Nibble) (k : Byte) (s : State) : Host.Outcome State Fault Refusal :=
  .next (endCycle .stepReset (opcodeByte 0x4#4 x) (operandAddress s) k (afterTwo s)
    { s with regB := k })

/-- STA: `memory[a] <- reg_a`; the operand byte was read before the store (R52, R125). -/
def execSta (x : Nibble) (a : Byte) (s : State) : Host.Outcome State Fault Refusal :=
  .next (endCycle .stepReset (opcodeByte 0x9#4 x) a s.regA (afterTwo s)
    { s with memory := s.memory.write a s.regA })

end Sys2Proof.Machine
end

