-- ==== Sys2Proof/Machine/System.lean ====
section
/-! DEFINITION. The system instructions NOP, OUT, HLT and the eleven unassigned opcodes (45_system.md rules
R160 to R164). -/

namespace Sys2Proof.Machine

/-- NOP: nothing but the fetch and the recompute of the flags (R160). -/
def execNop (x : Nibble) (s : State) : Host.Outcome State Fault Refusal :=
  .next (noOperation (opcodeByte 0x0#4 x) s)

/-- OUT: `output <- reg_a` (R161). -/
def execOut (s : State) : Host.Outcome State Fault Refusal :=
  .next (endCycle .stepReset 0xF3#8 s.pc s.regA (afterOne s) { s with output := s.regA })

/-- HLT: the word `HLT` of microstep 2 is the last one applied, so `hlt` is set and `t_step` stays 3
(R111, R162). -/
def execHlt (s : State) : Host.Outcome State Fault Refusal :=
  .next { endCycle .halt 0xFF#8 s.pc 0xFF#8 (afterOne s) s with hlt := true, tStep := 3#4 }

/-- The unassigned opcode 0xF4 (R163). -/
def execUnassignedF4 (s : State) : Host.Outcome State Fault Refusal := .next (noOperation 0xF4#8 s)

/-- The unassigned opcode 0xF5 (R163). -/
def execUnassignedF5 (s : State) : Host.Outcome State Fault Refusal := .next (noOperation 0xF5#8 s)

/-- The unassigned opcode 0xF6 (R163). -/
def execUnassignedF6 (s : State) : Host.Outcome State Fault Refusal := .next (noOperation 0xF6#8 s)

/-- The unassigned opcode 0xF7 (R163). -/
def execUnassignedF7 (s : State) : Host.Outcome State Fault Refusal := .next (noOperation 0xF7#8 s)

/-- The unassigned opcode 0xF8 (R163). -/
def execUnassignedF8 (s : State) : Host.Outcome State Fault Refusal := .next (noOperation 0xF8#8 s)

/-- The unassigned opcode 0xF9 (R163). -/
def execUnassignedF9 (s : State) : Host.Outcome State Fault Refusal := .next (noOperation 0xF9#8 s)

/-- The unassigned opcode 0xFA (R163). -/
def execUnassignedFA (s : State) : Host.Outcome State Fault Refusal := .next (noOperation 0xFA#8 s)

/-- The unassigned opcode 0xFB (R163). -/
def execUnassignedFB (s : State) : Host.Outcome State Fault Refusal := .next (noOperation 0xFB#8 s)

/-- The unassigned opcode 0xFC (R163). -/
def execUnassignedFC (s : State) : Host.Outcome State Fault Refusal := .next (noOperation 0xFC#8 s)

/-- The unassigned opcode 0xFD (R163). -/
def execUnassignedFD (s : State) : Host.Outcome State Fault Refusal := .next (noOperation 0xFD#8 s)

/-- The unassigned opcode 0xFE (R163). -/
def execUnassignedFE (s : State) : Host.Outcome State Fault Refusal := .next (noOperation 0xFE#8 s)

end Sys2Proof.Machine
end

