-- ==== Sys2Proof/Machine/Dispatch.lean ====
section
/-! DEFINITION. Which meaning runs which instruction: one arm per constructor of `Instr`. -/

namespace Sys2Proof.Machine

/-- One whole instruction cycle of the instruction `i`, from an instruction boundary of a running machine. -/
def exec (i : Instr) (s : State) : Host.Outcome State Fault Refusal :=
  match i with
  | .nop x => Sys2Proof.Machine.execNop x s
  | .lda x a => Sys2Proof.Machine.execLda x a s
  | .ldi x k => Sys2Proof.Machine.execLdi x k s
  | .ldb x a => Sys2Proof.Machine.execLdb x a s
  | .lbi x k => Sys2Proof.Machine.execLbi x k s
  | .add x a => Sys2Proof.Machine.execAdd x a s
  | .adi x k => Sys2Proof.Machine.execAdi x k s
  | .sub x a => Sys2Proof.Machine.execSub x a s
  | .sbi x k => Sys2Proof.Machine.execSbi x k s
  | .sta x a => Sys2Proof.Machine.execSta x a s
  | .jmp x t => Sys2Proof.Machine.execJmp x t s
  | .cmp x a => Sys2Proof.Machine.execCmp x a s
  | .cpi x k => Sys2Proof.Machine.execCpi x k s
  | .bnz x t => Sys2Proof.Machine.execBnz x t s
  | .jz x t => Sys2Proof.Machine.execJz x t s
  | .jc t => Sys2Proof.Machine.execJc t s
  | .inc a => Sys2Proof.Machine.execInc a s
  | .dec a => Sys2Proof.Machine.execDec a s
  | .out => Sys2Proof.Machine.execOut s
  | .hlt => Sys2Proof.Machine.execHlt s
  | .unassignedF4 => Sys2Proof.Machine.execUnassignedF4 s
  | .unassignedF5 => Sys2Proof.Machine.execUnassignedF5 s
  | .unassignedF6 => Sys2Proof.Machine.execUnassignedF6 s
  | .unassignedF7 => Sys2Proof.Machine.execUnassignedF7 s
  | .unassignedF8 => Sys2Proof.Machine.execUnassignedF8 s
  | .unassignedF9 => Sys2Proof.Machine.execUnassignedF9 s
  | .unassignedFA => Sys2Proof.Machine.execUnassignedFA s
  | .unassignedFB => Sys2Proof.Machine.execUnassignedFB s
  | .unassignedFC => Sys2Proof.Machine.execUnassignedFC s
  | .unassignedFD => Sys2Proof.Machine.execUnassignedFD s
  | .unassignedFE => Sys2Proof.Machine.execUnassignedFE s

end Sys2Proof.Machine
end

