-- ==== Sys2Proof/Machine/Step.lean ====
section
/-! DEFINITION. One step of the machine, and the placing of a table word where the step fetches it. One step
is one instruction cycle (log entry 2); the microstep is `tick` (Machine/Ops.lean). -/

namespace Sys2Proof.Machine

/-- One step: a halted machine does not change (R81); at an instruction boundary the instruction at the
program counter runs its whole cycle; between boundaries the cycle under way is completed tick by tick
(R80, R95). -/
def step (s : State) : Host.Outcome State Fault Refusal :=
  if s.hlt then .next s
  else if s.tStep = 0#4 then exec (fetchInstr s) s
  else finishCycle s

/-- `s` with the table word `w` of `nbits` bits where the very next step fetches and runs it (log entry 3). -/
def State.withFetchWord (s : State) (nbits w : Nat) : State := placeTableWord s nbits w

end Sys2Proof.Machine
end

