-- ==== Sys2Proof/Machine/Parameter.lean ====
section
/-! DEFINITION. The machine under each value of the spec's open parameter, "which a model takes as an
argument" (R8). Under `refuse` INC and DEC have no meaning and a run is refused where `ir` holds one of
them at microstep 2. `exec`, `step` and `core` are the machine at the value that Config names (log
entry 1); Laws/Parameter.lean proves that they are these operations at that value. -/

namespace Sys2Proof.Machine

/-- The meaning of an instruction under a value of `INCDEC_REALISATION`: only INC and DEC depend on it
(R8, R136, R137). -/
def execAs (p : IncDecRealisation) (i : Instr) (s : State) : Host.Outcome State Fault Refusal :=
  match i with
  | .inc a => execIncAs p a s
  | .dec a => execDecAs p a s
  | .nop _ | .lda _ _ | .ldi _ _ | .ldb _ _ | .lbi _ _ | .add _ _ | .adi _ _ | .sub _ _
  | .sbi _ _ | .sta _ _ | .jmp _ _ | .cmp _ _ | .cpi _ _ | .bnz _ _ | .jz _ _ | .jc _ | .out
  | .hlt | .unassignedF4 | .unassignedF5 | .unassignedF6 | .unassignedF7 | .unassignedF8
  | .unassignedF9 | .unassignedFA | .unassignedFB | .unassignedFC | .unassignedFD
  | .unassignedFE => exec i s

/-- One step under a value of `INCDEC_REALISATION`: as `step`, with the parameter's own meanings and
ticks (R8, R80, R95). -/
def stepAs (p : IncDecRealisation) (s : State) : Host.Outcome State Fault Refusal :=
  if s.hlt then .next s
  else if s.tStep = 0#4 then execAs p (fetchInstr s) s
  else finishCycleAs p s

/-- The machine under a value of `INCDEC_REALISATION`, so that it runs under either (R8). -/
def coreAs (p : IncDecRealisation) : Host.Core where
  State := State
  Fault := Fault
  Refusal := Refusal
  step := stepAs p
  reset := State.reset

end Sys2Proof.Machine
end

