-- ==== Sys2Proof/Safety.lean ====
section
/-! DEFINITION. The terms in which claims about the machine are stated: where an instruction cycle starts and
ends, which control words a run of ticks applies, what a frame leaves alone, and the two invariants. -/

namespace Sys2Proof

open Machine

/-- An instruction boundary of a running machine (00_scope.md section 4, R95). -/
abbrev AtBoundary (s : State) : Prop := s.hlt = false ∧ s.tStep = 0#4

/-- The bytes stand in memory from the address `p` up, wrapping (R47). -/
def codeAt : List Byte → Byte → State → Bool
  | [], _, _ => true
  | b :: rest, p, s => s.memory.read p == b && codeAt rest (p + 1#8) s

/-- From `s`, one tick for each word of the list, each of them applying that word, leads to `t`. -/
def AppliesWords : List ControlWord → State → State → Prop
  | [], s, t => t = s
  | w :: ws, s, t =>
    ∃ u, s.hlt = false ∧ tick s = .next u ∧ u.controlWord = w ∧ AppliesWords ws u t

/-- Every byte of memory reads in `t` as it reads in `s`. -/
def SameMemory (s t : State) : Prop := ∀ b : Byte, t.memory.read b = s.memory.read b

/-- In `t` the byte at `a` reads as `v`, and every other byte reads as it reads in `s`. -/
def MemoryButAt (a v : Byte) (s t : State) : Prop :=
  t.memory.read a = v ∧ ∀ b : Byte, b ≠ a → t.memory.read b = s.memory.read b

/-- The address that the next tick stores to, if it stores: `mar`, when the word it decodes asserts RI
(R44). -/
def storesAt (s : State) : Option Byte :=
  if s.hlt = false ∧ (nextWord s).ri = true then some s.mar else none

/-- The ALU output and the flags hold the result and the carry or borrow `r`: the `flags(r, c)` of
00_scope.md section 4 with `alu_out` beside it. -/
def FlagsOf (r : Byte × Bool) (t : State) : Prop :=
  t.aluOut = r.1 ∧ t.cf = r.2 ∧ t.zf = (r.1 == 0x00#8)

/-- The state stands at a boundary, running, and the last word applied was `w`. -/
def ClosedBy (w : ControlWord) (t : State) : Prop :=
  AtBoundary t ∧ t.controlWord = w

/-- What a cycle leaves of the registers and the output. -/
def RegistersHold (a b out : Byte) (t : State) : Prop :=
  t.regA = a ∧ t.regB = b ∧ t.output = out

/-- The latches of a cycle: instruction register, address register, bus and program counter. -/
def LatchesHold (ir mar bus pc : Byte) (t : State) : Prop :=
  t.ir = ir ∧ t.mar = mar ∧ t.bus = bus ∧ t.pc = pc

/-- The number of execute microsteps of an instruction: the column N of rule R64, and 1 for an
unassigned opcode (R66, R95). -/
def executeCount : Instr → Nat
  | .nop _ => 1
  | .lda _ _ => 4
  | .ldi _ _ => 3
  | .ldb _ _ => 4
  | .lbi _ _ => 3
  | .add _ _ => 5
  | .adi _ _ => 4
  | .sub _ _ => 5
  | .sbi _ _ => 4
  | .sta _ _ => 4
  | .jmp _ _ => 3
  | .cmp _ _ => 4
  | .cpi _ _ => 3
  | .bnz _ _ => 3
  | .jz _ _ => 3
  | .jc _ => 3
  | .inc _ => 6
  | .dec _ => 6
  | .out => 2
  | .hlt => 2
  | .unassignedF4 => 1
  | .unassignedF5 => 1
  | .unassignedF6 => 1
  | .unassignedF7 => 1
  | .unassignedF8 => 1
  | .unassignedF9 => 1
  | .unassignedFA => 1
  | .unassignedFB => 1
  | .unassignedFC => 1
  | .unassignedFD => 1
  | .unassignedFE => 1

/-- What holds of the machine after every step (R30, R95, R113, R114, R162). -/
structure MachineInv (s : State) : Prop where
  /-- Memory is in its canonical form: 256 bytes, nothing outside them (R30, log entry 4). -/
  canonical : s.memory.wf = true
  /-- A running machine stands at an instruction boundary (R95). -/
  boundary : s.hlt = false → s.tStep = 0#4
  /-- A halted machine shows the halting tick (R113, R162). -/
  halted : s.hlt = true → s.tStep = 3#4 ∧ s.ir = 0xFF#8 ∧ s.controlWord = .halt
  /-- The ALU output and the flags are those of A and B under the last word's subtract line (R114). -/
  flags : FlagsOf (alu s.controlWord.su s.regA s.regB) s
  /-- The last word applied is one with at most one bus driver and no clash (R172). -/
  legalWord : s.controlWord.legal = true

/-- What holds of the machine after every tick (R30, R97). -/
structure SequencerInv (s : State) : Prop where
  /-- Memory is in its canonical form (R30, log entry 4). -/
  canonical : s.memory.wf = true
  /-- The next microstep is one that the selected row has (R97). -/
  inRow : s.tStep.toNat < 2 + executeSteps (sel s.ir)
  /-- A halted machine shows the halting tick (R113, R162). -/
  halted : s.hlt = true → s.tStep = 3#4 ∧ sel s.ir = 0x1F#5 ∧ s.controlWord = .halt
  /-- The last word applied is one with at most one bus driver and no clash (R172). -/
  legalWord : s.controlWord.legal = true

end Sys2Proof
end

