-- ==== Sys2Proof/Certificates/Slice0/Obligations.lean ====
section
/-! DEFINITION. The statements for the provers. Each docstring names the rule or the section of spec/ that
the statement formalises. Where the spec marks a passage as its own decision or inference, the docstring
says so and the statement's basis is `derived`. -/

open Sys2Proof Sys2Proof.Machine

/-! ### Reset and the host -/

/-- R31: every element of the state is zero at reset but `zf`; every byte of memory reads 0x00. -/
def Obligations.ResetIsAllZeroButZeroFlag : Prop :=
  State.reset.regA = 0x00#8 ∧ State.reset.regB = 0x00#8 ∧ State.reset.aluOut = 0x00#8 ∧
  State.reset.pc = 0x00#8 ∧ (∀ b : Byte, State.reset.memory.read b = 0x00#8) ∧
  State.reset.cf = false ∧ State.reset.zf = true ∧ State.reset.hlt = false ∧
  State.reset.tStep = 0#4 ∧ State.reset.bus = 0x00#8 ∧ State.reset.mar = 0x00#8 ∧
  State.reset.ir = 0x00#8 ∧ State.reset.output = 0x00#8 ∧
  State.reset.controlWord.toBits = 0x00000#17

/-- 20_memory.md section 6: an image of at most 256 bytes goes to the bytes from address 0, the bytes
from its length up and every other element stay as they were; a longer image is refused. That a load
after a tick is refused too is log entry 6: the spec says that the host must not call it then. -/
def Obligations.LoadProgramPlacesTheImage : Prop :=
  (∀ image : List Byte, image.length ≤ 256 →
    ∃ t, loadProgram image State.reset = .next t ∧
      (∀ (i : Nat) (h : i < image.length), t.memory.read (BitVec.ofNat 8 i) = image[i]) ∧
      (∀ b : Byte, image.length ≤ b.toNat → t.memory.read b = State.reset.memory.read b) ∧
      t = { State.reset with memory := t.memory }) ∧
  (∀ (image : List Byte) (s : State), 256 < image.length →
    loadProgram image s = .refused .programTooLong) ∧
  (∀ (image : List Byte) (s t : State), image.length ≤ 256 → s.hlt = false → tick s = .next t →
    loadProgram image t = .refused .loadAfterCreation)

/-! ### The tick -/

/-- R101, R102: every tick of a running machine answers a next state, and recomputes `alu_out`, `cf` and `zf` from the values
that `reg_a` and `reg_b` have at its start, as the word's subtract line says. -/
def Obligations.EveryTickRecomputesAluAndFlags : Prop :=
  ∀ s : State, s.hlt = false → ∃ t : State, tick s = .next t ∧
    (t.controlWord.su = false →
      t.aluOut.toNat = (s.regA.toNat + s.regB.toNat) % 256 ∧
      (t.cf = true ↔ s.regA.toNat + s.regB.toNat > 255)) ∧
    (t.controlWord.su = true →
      (t.aluOut.toNat : Int) = ((s.regA.toNat : Int) - s.regB.toNat) % 256 ∧
      (t.cf = true ↔ s.regA.toNat < s.regB.toNat)) ∧
    (t.zf = true ↔ t.aluOut = 0x00#8)

/-- R103: the one asserted output enable puts its source on the bus, each source as it stands at the
start of the tick but `alu_out`, which is the one this same tick computes. -/
def Obligations.TheAssertedDriverDrivesTheBus : Prop :=
  ∀ (w : ControlWord) (s : State), w.drivers ≤ 1 →
    (w.co = true → (tickWith w s).bus = s.pc) ∧
    (w.ro = true → (tickWith w s).bus = s.memory.read s.mar) ∧
    (w.ao = true → (tickWith w s).bus = s.regA) ∧
    (w.eo = true → (tickWith w s).bus = (tickWith w s).aluOut)

/-- 41_datapath_apply.md section 4: each asserted latch takes the bus value of the tick and each other
one keeps its value. That a word with MI and RI, which the ROM does not have, writes at the new `mar` is
the spec's own decision D9. -/
def Obligations.AssertedLatchesTakeTheBus : Prop :=
  ∀ (w : ControlWord) (s : State),
    (tickWith w s).mar = (if w.mi then (tickWith w s).bus else s.mar) ∧
    (tickWith w s).ir = (if w.ii then (tickWith w s).bus else s.ir) ∧
    (tickWith w s).regA = (if w.ai then (tickWith w s).bus else s.regA) ∧
    (tickWith w s).regB = (if w.bi then (tickWith w s).bus else s.regB) ∧
    (tickWith w s).output = (if w.oi then (tickWith w s).bus else s.output) ∧
    (∀ b : Byte, (tickWith w s).memory.read b =
      if w.ri = true ∧ b = (tickWith w s).mar then (tickWith w s).bus else s.memory.read b)

/-- R108, R109, R110, R111: what counter-enable, jump, step-reset and halt do, in that order. A word
with CO and CE puts the old `pc` on the bus; no word of the ROM has J with CE, and JMP asserts jump with
the flag-gate true whatever the flags are; a word that halts still recomputes the ALU and the flags. -/
def Obligations.CounterJumpStepResetAndHalt : Prop :=
  ∀ (w : ControlWord) (s : State),
    let counted := if w.ce then s.pc + 1#8 else s.pc
    (tickWith w s).pc =
      (if w.j then (if w.fg then (tickWith w s).bus else counted + 1#8) else counted) ∧
    (tickWith w s).tStep = (if w.sr then 0#4 else s.tStep + 1#4) ∧
    (tickWith w s).hlt = (w.hlt || s.hlt) ∧
    (w.drivers ≤ 1 → w.co = true → w.ce = true →
      (tickWith w s).bus = s.pc ∧ (w.j = false → (tickWith w s).pc = s.pc + 1#8)) ∧
    (w.hlt = true → FlagsOf (alu w.su s.regA s.regB) (tickWith w s)) ∧
    (∀ (cf zf : Bool) (selector : Selector) (t : Microstep),
      ((rom cf zf selector t).j = true → (rom cf zf selector t).ce = false) ∧
      (selector = 0x0A#5 → (rom cf zf selector t).fg = (rom cf zf selector t).j))

/-- R113: after a tick the snapshot holds the word just applied, and after a completed HLT it holds
`HLT` (0x8000) for good. -/
def Obligations.SnapshotHoldsTheLastWord : Prop :=
  (∀ s t : State, s.hlt = false → tick s = .next t →
    t.controlWord = decodeControl s.ir s.tStep s.cf s.zf) ∧
  (∀ (s : State) (n : Nat), AtBoundary s → s.memory.read s.pc = 0xFF#8 →
    ∃ t, runTicks (3 + n) s = .next t ∧ t.controlWord = .halt ∧
      t.controlWord.toBits = 0x08000#17)

/-- R84, R85: microsteps 0 and 1 are the same for every opcode byte in `ir`, and fetch. -/
def Obligations.FetchMicrostepsReadTheOpcode : Prop :=
  (∀ (ir : Byte) (cf zf : Bool), decodeControl ir 0#4 cf zf = .miCo ∧
    decodeControl ir 1#4 cf zf = .roIiCe) ∧
  ControlWord.miCo.toBits = 0x04004#17 ∧ ControlWord.roIiCe.toBits = 0x01808#17 ∧
  (∀ s : State, s.hlt = false → s.tStep = 0#4 →
    ∃ t, tick s = .next t ∧ LatchesHold s.ir s.pc s.pc s.pc t ∧ t.tStep = 1#4 ∧
      RegistersHold s.regA s.regB s.output t ∧ SameMemory s t) ∧
  (∀ s : State, s.hlt = false → s.tStep = 1#4 →
    ∃ t, tick s = .next t ∧
      LatchesHold (s.memory.read s.mar) s.mar (s.memory.read s.mar) (s.pc + 1#8) t ∧
      t.tStep = 2#4 ∧ RegistersHold s.regA s.regB s.output t ∧ SameMemory s t)

/-- R18: the halt flag is false at reset, a word that asserts HLT sets it, and no tick clears it. -/
def Obligations.HaltFlagIsMonotonic : Prop :=
  State.reset.hlt = false ∧
  (∀ s t : State, s.hlt = false → tick s = .next t → t.hlt = t.controlWord.hlt) ∧
  (∀ (n : Nat) (s t : State), s.hlt = true → runTicks n s = .next t → t.hlt = true)

/-- 10_state.md section 2: no word writes the flags directly: a tick leaves those of the ALU, whatever the
word. And none reads them as data: under any word a tick writes the same state whatever the flags were.
That a whole instruction cycle leaves the same state whatever they were at its start, that of BNZ, JZ and
JC too, whose jump microstep the decoder gates by the flags, is 41_datapath_apply.md section 6 and
44_control_transfer.md, "What a conditional branch tests", which the spec marks as derived, on its own
decisions D1, D4 and D7 (log entry 8); for INC and DEC it rests on `k1`, log entry 1. -/
def Obligations.FlagsAreNeverData : Prop :=
  (∀ (w : ControlWord) (s : State), FlagsOf (alu w.su s.regA s.regB) (tickWith w s)) ∧
  (∀ (w : ControlWord) (s : State) (c z : Bool),
    tickWith w { s with cf := c, zf := z } = tickWith w s) ∧
  (∀ (i : Instr) (s : State) (c z : Bool), exec i { s with cf := c, zf := z } = exec i s)

/-- R54: a byte that no tick of a run stores to reads at its end as at its start, and a tick stores
only at microstep 4 of STA and microstep 6 of INC and DEC, at `mar`. -/
def Obligations.NoSpuriousWrites : Prop :=
  (∀ (n : Nat) (s t : State) (b : Byte), runTicks n s = .next t →
    (∀ (k : Nat) (u : State), k < n → runTicks k s = .next u → storesAt u ≠ some b) →
    t.memory.read b = s.memory.read b) ∧
  (∀ (s : State) (b : Byte), storesAt s = some b →
    b = s.mar ∧ ((sel s.ir = 0x09#5 ∧ s.tStep = 4#4) ∨
      ((sel s.ir = 0x11#5 ∨ sel s.ir = 0x12#5) ∧ s.tStep = 6#4)))

/-- R43, R44: no access faults; a tick that asserts RO reads the byte at `mar`, as both stand at its start, and leaves
memory alone; a tick that asserts RI writes that tick's bus value at the `mar` of its start, MI never being asserted with it; and
no other byte changes. -/
def Obligations.MemoryIsReadAndWrittenAtMar : Prop :=
  ∀ s : State, s.hlt = false → ∃ t : State, tick s = .next t ∧
    (t.controlWord.ro = true → t.bus = s.memory.read s.mar ∧ SameMemory s t) ∧
    (t.controlWord.ri = true → t.controlWord.mi = false ∧ MemoryButAt s.mar t.bus s t) ∧
    (t.controlWord.ri = false → SameMemory s t)

/-- R95: from a boundary of a running machine exactly `2 + N` ticks lead to the next boundary, N
being the count of the instruction fetched, and `t_step` counts the ticks between; for HLT the third
tick halts, the fourth does nothing and `t_step` stays 3. -/
def Obligations.CycleTakesTwoPlusNTicks : Prop :=
  ∀ s : State, AtBoundary s →
    (s.memory.read s.pc ≠ 0xFF#8 →
      (∃ t, runTicks (2 + executeCount (fetchInstr s)) s = .next t ∧ AtBoundary t) ∧
      (∀ k, k < 2 + executeCount (fetchInstr s) →
        ∃ u, runTicks k s = .next u ∧ u.hlt = false ∧ u.tStep.toNat = k)) ∧
    (s.memory.read s.pc = 0xFF#8 →
      ∃ t, runTicks 3 s = .next t ∧ t.hlt = true ∧ t.tStep = 3#4 ∧ runTicks 4 s = .next t)

/-- 10_state.md section 9: `t_step` is within the source's range, and within the one this ROM keeps, and
memory is 256 bytes: so at reset, and every tick keeps it so. That memory is bounded by its canonical form
is the model's representation, log entry 4; that a tick leaves a machine whose `hlt` is true wholly as it
is is log entry 5, the spec's own decision D3. -/
def Obligations.TickKeepsTheStateBounds : Prop :=
  (State.reset.tStep.toNat ≤ 7 ∧ State.reset.memory.wf = true) ∧
  ∀ s t : State, tick s = .next t →
    (s.tStep.toNat ≤ 8 → t.tStep.toNat ≤ 8) ∧
    (s.tStep.toNat ≤ 7 → t.tStep.toNat ≤ 7) ∧
    (s.memory.wf = true → t.memory.wf = true) ∧
    (s.hlt = true → t.hlt = true ∧ t = s)

/-! ### Invariants -/

/-- 40_sequencer_and_decoder.md section 5: every tick keeps the sequencer's invariant, by which the
microstep stays inside the selected row. The spec marks the passage on reachable microsteps as
derived. -/
def Obligations.TickKeepsSequencerInvariant : Prop :=
  ∀ s t : State, SequencerInv s → tick s = .next t → SequencerInv t

/-- Every step keeps the machine's invariant: the canonical memory, the instruction boundary, the
halting tick's trace, the boundary flags, a legal last word. -/
def Obligations.StepKeepsMachineInvariant : Prop :=
  ∀ s t : State, MachineInv s → step s = .next t → MachineInv t

/-- The reset state meets both invariants. -/
def Obligations.ResetMeetsBothInvariants : Prop :=
  MachineInv State.reset ∧ SequencerInv State.reset

/-- 20_memory.md section 1, log entry 4 (the model's own representation): two memories in canonical
form that read alike are equal, so that equal memories are equal data. -/
def Obligations.CanonicalMemoriesThatReadAlikeAreEqual : Prop :=
  ∀ m m' : Memory, m.wf = true → m'.wf = true → (∀ b : Byte, m.read b = m'.read b) → m = m'

/-! ### Encoding -/

/-- Decoding the encoding of any instruction, with every low nibble and every operand, gives it back
with the bytes that follow. -/
def Obligations.DecodeOfEncodeIsTheInstruction : Prop :=
  ∀ (i : Instr) (rest : List Byte), decode (encode i ++ rest) = .ok (i, rest)

/-- What the decoder takes from a list of bytes is the encoding of what it answers: no bit is
dropped. -/
def Obligations.DecodedBytesAreTheEncoding : Prop :=
  ∀ (bytes rest : List Byte) (i : Instr), decode bytes = .ok (i, rest) → bytes = encode i ++ rest

/-- 30_encoding.md section 5: there is no illegal encoding. Any two bytes decode, and the opcode
byte alone decides between one byte taken and two. The spec marks the passage as derived. -/
def Obligations.EveryOpcodeByteDecodes : Prop :=
  ∀ (op d : Byte) (rest : List Byte),
    decode (op :: d :: rest) =
      .ok (decodePair op d, if instrLength op = 1 then d :: rest else rest)

/-- Words written out from the opcode map decode to their instructions, one or two for each family.
-/
def Obligations.TableWordsDecodeAsListed : Prop :=
  decodeTableWord 8 0x00 = some (.nop 0x0#4) ∧
  decodeTableWord 16 0x801C = some (.lda 0xC#4 0x80#8) ∧
  decodeTableWord 16 0x1190 = some (.sta 0x0#4 0x11#8) ∧
  decodeTableWord 16 0x0A60 = some (.adi 0x0#4 0x0A#8) ∧
  decodeTableWord 16 0x07C0 = some (.cpi 0x0#4 0x07#8) ∧
  decodeTableWord 16 0x40A7 = some (.jmp 0x7#4 0x40#8) ∧
  decodeTableWord 16 0x40F0 = some (.jc 0x40#8) ∧
  decodeTableWord 16 0x80F1 = some (.inc 0x80#8) ∧
  decodeTableWord 8 0xF3 = some .out ∧
  decodeTableWord 8 0xF7 = some .unassignedF7 ∧
  decodeTableWord 8 0xFF = some .hlt

/-- 46_microcode_rom_listing.md section 3, which the spec marks as derived: no word of the ROM has
two bus drivers, MI or RO with RI, J with CE, FG without J, or SR with HLT. -/
def Obligations.EveryRomWordIsLegal : Prop :=
  ∀ (cf zf : Bool) (selector : Selector) (t : Microstep), (rom cf zf selector t).legal = true

/-! ### The step -/

/-- When the bytes at the program counter of a running machine at a boundary decode to an
instruction, the step is that instruction's meaning. That one step is a whole cycle is the model's
choice, log entry 2. That a halted machine answers the same state is log entry 5: the spec's own
decision D3, which also allows no step at all. -/
def Obligations.StepRunsTheDecodedInstruction : Prop :=
  (∀ (s : State) (i : Instr) (rest : List Byte), AtBoundary s →
    decode [s.memory.read s.pc, s.memory.read (s.pc + 1#8)] = .ok (i, rest) →
    step s = exec i s) ∧
  (∀ s : State, s.hlt = true → step s = .next s)

/-- The meanings of the instructions are what the microcode does: a step from a boundary is the run
of `2 + N` ticks, for every instruction in memory and every state. The execute rows are the spec's
own decision (92_eei_decisions.md D4: "The spec's choice: the table of rule R171"). That one step is
a whole cycle is the model's choice, log entry 2; for INC and DEC the statement rests on `k1`, log
entry 1; that HLT's fourth tick does nothing is the spec's own decision D3, log entry 5. -/
def Obligations.StepIsTheMicroprogram : Prop :=
  ∀ s : State, AtBoundary s → step s = runTicks (2 + executeCount (fetchInstr s)) s

/-- A step of a running machine, from any microstep, is a run of one to eight ticks that ends at the
first boundary or at the halt. Log entry 2: that a step is a cycle is the model's choice. For
INC and DEC the statement rests on `k1`, log entry 1. -/
def Obligations.StepEndsAtTheFirstBoundaryOrHalt : Prop :=
  ∀ s : State, s.hlt = false →
    ∃ (k : Nat) (t : State), 1 ≤ k ∧ k ≤ 8 ∧ runTicks k s = .next t ∧ step s = .next t ∧
      (t.tStep = 0#4 ∨ t.hlt = true) ∧
      ∀ j, 0 < j → j < k → ∃ u, runTicks j s = .next u ∧ u.tStep ≠ 0#4 ∧ u.hlt = false

/-- 60_exceptions.md section 1: nothing traps. Every instruction, every tick and every step answers
a next state, from every state. For INC and DEC this rests on log entry 1 (`k1`). -/
def Obligations.NothingEverStops : Prop :=
  (∀ (i : Instr) (s : State), ∃ t, exec i s = .next t) ∧
  (∀ s : State, ∃ t, tick s = .next t) ∧ (∀ s : State, ∃ t, step s = .next t)

/-- 40_sequencer_and_decoder.md section 1 and the spec's decision D3: no tick and no step changes a
halted machine in any element. -/
def Obligations.HaltedMachineIsStuck : Prop :=
  ∀ (n : Nat) (s : State), s.hlt = true →
    runTicks n s = .next s ∧ Host.Core.run Sys2Proof.core n s = .next s

/-- At a boundary only A, B, `pc`, `output` and memory matter: two running machines that agree on
them take the same step to the same state. What a program sees never depends on what the flags, the
ALU output, `mar`, `ir`, `bus` or the snapshot held (70_reset_and_hazards.md section 2, "The flags
do not persist"). -/
def Obligations.HiddenLatchesDoNotMatter : Prop :=
  ∀ s s' : State, AtBoundary s → AtBoundary s' →
    s.regA = s'.regA → s.regB = s'.regB → s.pc = s'.pc → s.output = s'.output →
    s.memory = s'.memory → step s = step s'

/-- 41_datapath_apply.md section 6 (derived): after every instruction but CMP and CPI the ALU output
and the flags are those of A + B as A and B then stand; after CMP and CPI those of A - B. -/
def Obligations.BoundaryFlagsAreOfTheSum : Prop :=
  ∀ (i : Instr) (s t : State), exec i s = .next t →
    if sel i.opcode = 0x0B#5 ∨ sel i.opcode = 0x0C#5
    then t.aluOut = t.regA - t.regB ∧ (t.cf = true ↔ t.regA.toNat < t.regB.toNat) ∧
      (t.zf = true ↔ t.regA = t.regB)
    else t.aluOut = t.regA + t.regB ∧ (t.cf = true ↔ t.regA.toNat + t.regB.toNat > 255) ∧
      (t.zf = true ↔ t.regA + t.regB = 0x00#8)

/-- 10_state.md section 11 (derived): which instructions write A, B, memory, `output` and `hlt`, and
which move `pc` other than to the next instruction. -/
def Obligations.WritersOfEachElement : Prop :=
  ∀ (i : Instr) (s t : State), exec i s = .next t →
    (t.regA ≠ s.regA → sel i.opcode ∈
      [0x01#5, 0x02#5, 0x05#5, 0x06#5, 0x07#5, 0x08#5, 0x11#5, 0x12#5]) ∧
    (t.regB ≠ s.regB → sel i.opcode ∈
      [0x03#5, 0x04#5, 0x05#5, 0x06#5, 0x07#5, 0x08#5, 0x0B#5, 0x0C#5, 0x11#5, 0x12#5]) ∧
    (t.memory ≠ s.memory → sel i.opcode ∈ [0x09#5, 0x11#5, 0x12#5]) ∧
    (t.output ≠ s.output → sel i.opcode = 0x13#5) ∧
    (t.hlt ≠ s.hlt → sel i.opcode = 0x1F#5) ∧
    (t.pc ≠ s.pc + BitVec.ofNat 8 (encode i).length → sel i.opcode ∈
      [0x0A#5, 0x0D#5, 0x0E#5, 0x10#5])

/-- 40_sequencer_and_decoder.md section 2 (derived): at the jump microstep of a branch the flags at
the start of the tick are the ones its own step 1 recomputes, so the gate may be taken from either.
-/
def Obligations.GateReadsEitherFlags : Prop :=
  ∀ s u : State, s.hlt = false → s.tStep = 2#4 → sel s.ir ∈ [0x0A#5, 0x0D#5, 0x0E#5, 0x10#5] →
    tick s = .next u →
    u.tStep = 3#4 ∧ (nextWord u).j = true ∧
      (recompute (nextWord u).su u).cf = u.cf ∧ (recompute (nextWord u).su u).zf = u.zf

/-- 44_control_transfer.md, "What a conditional branch tests" (derived): a compare does not reach
the branch after it. `CPI #k; JZ t` jumps exactly when A + k is 0 modulo 256. -/
def Obligations.CompareDoesNotReachTheBranch : Prop :=
  ∀ (k t : Byte) (s : State), AtBoundary s → codeAt [0xC0#8, k, 0xE0#8, t] s.pc s = true →
    ∃ u v, step s = .next u ∧ (u.zf = true ↔ s.regA = k) ∧ step u = .next v ∧
      v.pc = if s.regA + k = 0x00#8 then t else s.pc + 4#8

/-- 44_control_transfer.md, "What a conditional branch tests" (derived): after a subtraction JC
tests its borrow. `SBI #k; JC t` jumps exactly when A is below k. -/
def Obligations.SubtractionBorrowReachesJc : Prop :=
  ∀ (k t : Byte) (s : State), AtBoundary s → codeAt [0x80#8, k, 0xF0#8, t] s.pc s = true →
    ∃ u v, step s = .next u ∧ u.regA = s.regA - k ∧ step u = .next v ∧
      v.pc = if s.regA.toNat < k.toNat then t else s.pc + 4#8

/-- 20_memory.md section 5 (derived): a store is seen by the very next fetch, and a store over the
instruction's own operand byte does not change the instruction under way. -/
def Obligations.StoresReachTheNextFetch : Prop :=
  ∀ (x : Nibble) (a : Byte) (s : State), AtBoundary s → codeAt [0x9#4 ++ x, a] s.pc s = true →
    ∃ t, step s = .next t ∧ t.pc = s.pc + 2#8 ∧ t.memory.read a = s.regA ∧
      (a = s.pc + 2#8 → fetchInstr t = decodePair s.regA (s.memory.read (s.pc + 3#8))) ∧
      (a = s.pc + 3#8 → fetchInstr t = decodePair (s.memory.read (s.pc + 2#8)) s.regA)

/-- 70_reset_and_hazards.md section 2, "Running off the end" (derived): with all of memory zero the
machine runs for ever, one address a step, round from 0xFF to 0x00, and keeps A, B and `output`. -/
def Obligations.ZeroMemoryRunsForEver : Prop :=
  ∀ (n : Nat) (s : State), AtBoundary s → s.memory = [] →
    ∃ t, Host.Core.run Sys2Proof.core n s = .next t ∧ AtBoundary t ∧ t.memory = [] ∧
      t.pc = s.pc + BitVec.ofNat 8 n ∧ RegistersHold s.regA s.regB s.output t

/-- 00_scope.md section 3 and the spec's decision D6: under `INCDEC_REALISATION = refuse` a running
machine is refused when `ir` holds INC or DEC at microstep 2 or later, and does as under `k1`
otherwise; the two meanings are refused. -/
def Obligations.RefuseParameterStopsIncAndDec : Prop :=
  (∀ s : State, s.hlt = false → 2 ≤ s.tStep.toNat →
    (sel s.ir = 0x11#5 ∨ sel s.ir = 0x12#5) →
    tickAs .refuse s = .refused .incDecNotRealised) ∧
  (∀ s : State, (s.hlt = true ∨ s.tStep.toNat < 2 ∨
      (sel s.ir ≠ 0x11#5 ∧ sel s.ir ≠ 0x12#5)) → tickAs .refuse s = tickAs .k1 s) ∧
  (∀ (a : Byte) (s : State), execIncAs .refuse a s = .refused .incDecNotRealised ∧
    execDecAs .refuse a s = .refused .incDecNotRealised)

/-! ### The instructions -/

/-- R160: NOP takes three ticks and does nothing beyond the fetch and the recompute of the flags. -/
def Obligations.NopOnlyFetches : Prop :=
  ∀ (x : Nibble) (s : State), AtBoundary s →
    encode (.nop x) = [0x0#4 ++ x] ∧
    ∃ t : State, exec (.nop x) s = .next t ∧
      (codeAt [0x0#4 ++ x] s.pc s = true →
        AppliesWords [.miCo, .roIiCe, .stepReset] s t) ∧
      RegistersHold s.regA s.regB s.output t ∧ SameMemory s t ∧
      LatchesHold (0x0#4 ++ x) s.pc (0x0#4 ++ x) (s.pc + 1#8) t ∧
      FlagsOf (add8 s.regA s.regB) t ∧ ClosedBy .stepReset t

/-- 42_load_store.md, LDA: six ticks, `reg_a` takes the byte at `a`. The spec marks the execute rows
as its own decision D4. -/
def Obligations.LdaLoadsAFromMemory : Prop :=
  ∀ (x : Nibble) (a : Byte) (s : State), AtBoundary s →
    let m := s.memory.read a
    encode (.lda x a) = [0x1#4 ++ x, a] ∧
    ∃ t : State, exec (.lda x a) s = .next t ∧
      (codeAt [0x1#4 ++ x, a] s.pc s = true →
        AppliesWords [.miCo, .roIiCe, .miCo, .miRoCe, .roAi, .stepReset] s t) ∧
      RegistersHold m s.regB s.output t ∧ SameMemory s t ∧
      LatchesHold (0x1#4 ++ x) a m (s.pc + 2#8) t ∧
      FlagsOf (add8 m s.regB) t ∧ ClosedBy .stepReset t

/-- 42_load_store.md, LDI: five ticks, `reg_a` takes the operand byte. The spec marks the execute
rows as its own decision D4. -/
def Obligations.LdiLoadsAImmediate : Prop :=
  ∀ (x : Nibble) (k : Byte) (s : State), AtBoundary s →
    encode (.ldi x k) = [0x2#4 ++ x, k] ∧
    ∃ t : State, exec (.ldi x k) s = .next t ∧
      (codeAt [0x2#4 ++ x, k] s.pc s = true →
        AppliesWords [.miCo, .roIiCe, .miCo, .roAiCe, .stepReset] s t) ∧
      RegistersHold k s.regB s.output t ∧ SameMemory s t ∧
      LatchesHold (0x2#4 ++ x) (s.pc + 1#8) k (s.pc + 2#8) t ∧
      FlagsOf (add8 k s.regB) t ∧ ClosedBy .stepReset t

/-- 42_load_store.md, LDB: six ticks, `reg_b` takes the byte at `a`. The spec marks the execute rows
as its own decision D4. -/
def Obligations.LdbLoadsBFromMemory : Prop :=
  ∀ (x : Nibble) (a : Byte) (s : State), AtBoundary s →
    let m := s.memory.read a
    encode (.ldb x a) = [0x3#4 ++ x, a] ∧
    ∃ t : State, exec (.ldb x a) s = .next t ∧
      (codeAt [0x3#4 ++ x, a] s.pc s = true →
        AppliesWords [.miCo, .roIiCe, .miCo, .miRoCe, .roBi, .stepReset] s t) ∧
      RegistersHold s.regA m s.output t ∧ SameMemory s t ∧
      LatchesHold (0x3#4 ++ x) a m (s.pc + 2#8) t ∧
      FlagsOf (add8 s.regA m) t ∧ ClosedBy .stepReset t

/-- 42_load_store.md, LBI: five ticks, `reg_b` takes the operand byte. The spec marks the execute
rows as its own decision D4. -/
def Obligations.LbiLoadsBImmediate : Prop :=
  ∀ (x : Nibble) (k : Byte) (s : State), AtBoundary s →
    encode (.lbi x k) = [0x4#4 ++ x, k] ∧
    ∃ t : State, exec (.lbi x k) s = .next t ∧
      (codeAt [0x4#4 ++ x, k] s.pc s = true →
        AppliesWords [.miCo, .roIiCe, .miCo, .roBiCe, .stepReset] s t) ∧
      RegistersHold s.regA k s.output t ∧ SameMemory s t ∧
      LatchesHold (0x4#4 ++ x) (s.pc + 1#8) k (s.pc + 2#8) t ∧
      FlagsOf (add8 s.regA k) t ∧ ClosedBy .stepReset t

/-- 42_load_store.md, STA: six ticks, the byte at `a` becomes `reg_a` and no other byte changes. The
spec marks the execute rows as its own decision D4. -/
def Obligations.StaStoresAToMemory : Prop :=
  ∀ (x : Nibble) (a : Byte) (s : State), AtBoundary s →
    encode (.sta x a) = [0x9#4 ++ x, a] ∧
    ∃ t : State, exec (.sta x a) s = .next t ∧
      (codeAt [0x9#4 ++ x, a] s.pc s = true →
        AppliesWords [.miCo, .roIiCe, .miCo, .miRoCe, .riAo, .stepReset] s t) ∧
      RegistersHold s.regA s.regB s.output t ∧ MemoryButAt a s.regA s t ∧
      LatchesHold (0x9#4 ++ x) a s.regA (s.pc + 2#8) t ∧
      FlagsOf (add8 s.regA s.regB) t ∧ ClosedBy .stepReset t

/-- 43_arithmetic.md, ADD: seven ticks, `reg_a` takes the sum and `reg_b` the datum; the flags of
the sum stand at the end of microstep 5 and those of the new A plus B at the boundary. The spec
marks the execute rows as its own decision D4. -/
def Obligations.AddAddsTheByteAtAnAddress : Prop :=
  ∀ (x : Nibble) (a : Byte) (s : State), AtBoundary s →
    let m := s.memory.read a
    encode (.add x a) = [0x5#4 ++ x, a] ∧
    ∃ t : State, exec (.add x a) s = .next t ∧
      (codeAt [0x5#4 ++ x, a] s.pc s = true →
        ∃ u, AppliesWords [.miCo, .roIiCe, .miCo, .miRoCe, .roBi, .aiEo] s u ∧
          FlagsOf (add8 s.regA m) u ∧ AppliesWords [.stepReset] u t) ∧
      RegistersHold (s.regA + m) m s.output t ∧ SameMemory s t ∧
      LatchesHold (0x5#4 ++ x) a (s.regA + m) (s.pc + 2#8) t ∧
      FlagsOf (add8 (s.regA + m) m) t ∧ ClosedBy .stepReset t

/-- 43_arithmetic.md, ADI: six ticks, as ADD with the operand byte as the datum. The spec marks the
execute rows as its own decision D4. -/
def Obligations.AdiAddsTheImmediate : Prop :=
  ∀ (x : Nibble) (k : Byte) (s : State), AtBoundary s →
    encode (.adi x k) = [0x6#4 ++ x, k] ∧
    ∃ t : State, exec (.adi x k) s = .next t ∧
      (codeAt [0x6#4 ++ x, k] s.pc s = true →
        ∃ u, AppliesWords [.miCo, .roIiCe, .miCo, .roBiCe, .aiEo] s u ∧
          FlagsOf (add8 s.regA k) u ∧ AppliesWords [.stepReset] u t) ∧
      RegistersHold (s.regA + k) k s.output t ∧ SameMemory s t ∧
      LatchesHold (0x6#4 ++ x) (s.pc + 1#8) (s.regA + k) (s.pc + 2#8) t ∧
      FlagsOf (add8 (s.regA + k) k) t ∧ ClosedBy .stepReset t

/-- 43_arithmetic.md, SUB: seven ticks; at the boundary `alu_out` is the old A, the carry is the
borrow and the zero flag says whether the old A was 0. The spec marks the execute rows as its own
decision D4. -/
def Obligations.SubSubtractsTheByteAtAnAddress : Prop :=
  ∀ (x : Nibble) (a : Byte) (s : State), AtBoundary s →
    let m := s.memory.read a
    encode (.sub x a) = [0x7#4 ++ x, a] ∧
    ∃ t : State, exec (.sub x a) s = .next t ∧
      (codeAt [0x7#4 ++ x, a] s.pc s = true →
        ∃ u, AppliesWords [.miCo, .roIiCe, .miCo, .miRoCe, .roBi, .aiEoSu] s u ∧
          FlagsOf (sub8 s.regA m) u ∧ AppliesWords [.stepReset] u t) ∧
      RegistersHold (s.regA - m) m s.output t ∧ SameMemory s t ∧
      LatchesHold (0x7#4 ++ x) a (s.regA - m) (s.pc + 2#8) t ∧
      FlagsOf (s.regA, decide (s.regA.toNat < m.toNat)) t ∧ ClosedBy .stepReset t

/-- 43_arithmetic.md, SBI: six ticks, as SUB with the operand byte as the datum. The spec marks the
execute rows as its own decision D4. -/
def Obligations.SbiSubtractsTheImmediate : Prop :=
  ∀ (x : Nibble) (k : Byte) (s : State), AtBoundary s →
    encode (.sbi x k) = [0x8#4 ++ x, k] ∧
    ∃ t : State, exec (.sbi x k) s = .next t ∧
      (codeAt [0x8#4 ++ x, k] s.pc s = true →
        ∃ u, AppliesWords [.miCo, .roIiCe, .miCo, .roBiCe, .aiEoSu] s u ∧
          FlagsOf (sub8 s.regA k) u ∧ AppliesWords [.stepReset] u t) ∧
      RegistersHold (s.regA - k) k s.output t ∧ SameMemory s t ∧
      LatchesHold (0x8#4 ++ x) (s.pc + 1#8) (s.regA - k) (s.pc + 2#8) t ∧
      FlagsOf (s.regA, decide (s.regA.toNat < k.toNat)) t ∧ ClosedBy .stepReset t

/-- 43_arithmetic.md, CMP: six ticks; at the boundary the flags are those of A minus the datum, and
one tick later those of A plus it. The final word `SR+SU` is the spec's own decision D5. -/
def Obligations.CmpComparesWithTheByteAtAnAddress : Prop :=
  ∀ (x : Nibble) (a : Byte) (s : State), AtBoundary s →
    let m := s.memory.read a
    encode (.cmp x a) = [0xB#4 ++ x, a] ∧
    ∃ t : State, exec (.cmp x a) s = .next t ∧
      (codeAt [0xB#4 ++ x, a] s.pc s = true →
        AppliesWords [.miCo, .roIiCe, .miCo, .miRoCe, .roBi, .srSu] s t) ∧
      RegistersHold s.regA m s.output t ∧ SameMemory s t ∧
      LatchesHold (0xB#4 ++ x) a m (s.pc + 2#8) t ∧
      FlagsOf (sub8 s.regA m) t ∧ (t.zf = true ↔ s.regA = m) ∧ ClosedBy .srSu t ∧
      ∃ v, tick t = .next v ∧ FlagsOf (add8 s.regA m) v

/-- 43_arithmetic.md, CPI: five ticks, as CMP with the operand byte as the datum. The final word
`SR+SU` is the spec's own decision D5. -/
def Obligations.CpiComparesWithTheImmediate : Prop :=
  ∀ (x : Nibble) (k : Byte) (s : State), AtBoundary s →
    encode (.cpi x k) = [0xC#4 ++ x, k] ∧
    ∃ t : State, exec (.cpi x k) s = .next t ∧
      (codeAt [0xC#4 ++ x, k] s.pc s = true →
        AppliesWords [.miCo, .roIiCe, .miCo, .roBiCe, .srSu] s t) ∧
      RegistersHold s.regA k s.output t ∧ SameMemory s t ∧
      LatchesHold (0xC#4 ++ x) (s.pc + 1#8) k (s.pc + 2#8) t ∧
      FlagsOf (sub8 s.regA k) t ∧ (t.zf = true ↔ s.regA = k) ∧ ClosedBy .srSu t ∧
      ∃ v, tick t = .next v ∧ FlagsOf (add8 s.regA k) v

/-- 43_arithmetic.md, INC, with `k1` (log entry 1; the spec's own decision D6): eight ticks, the
byte at `a` goes up by one, A keeps the old byte and B the 1, and the flags are those of the
increment. -/
def Obligations.IncIncrementsMemory : Prop :=
  ∀ (a : Byte) (s : State), AtBoundary s →
    let m := s.memory.read a
    encode (.inc a) = [0xF1#8, a] ∧
    ∃ t : State, exec (.inc a) s = .next t ∧
      (codeAt [0xF1#8, a] s.pc s = true →
        ∃ u, AppliesWords [.miCo, .roIiCe, .miCo, .miRoCe, .roAi, .biK1, .riEo] s u ∧
          FlagsOf (m + 1#8, m == 0xFF#8) u ∧ AppliesWords [.stepReset] u t) ∧
      RegistersHold m 0x01#8 s.output t ∧ MemoryButAt a (m + 1#8) s t ∧
      LatchesHold 0xF1#8 a (m + 1#8) (s.pc + 2#8) t ∧
      FlagsOf (m + 1#8, m == 0xFF#8) t ∧ t.zf = (m == 0xFF#8) ∧ ClosedBy .stepReset t

/-- 43_arithmetic.md, DEC, with `k1` (log entry 1; the spec's own decision D6): eight ticks, the
byte at `a` goes down by one; the flags of the decrement stand at the end of microstep 6, those of
the old byte plus one at the boundary. -/
def Obligations.DecDecrementsMemory : Prop :=
  ∀ (a : Byte) (s : State), AtBoundary s →
    let m := s.memory.read a
    encode (.dec a) = [0xF2#8, a] ∧
    ∃ t : State, exec (.dec a) s = .next t ∧
      (codeAt [0xF2#8, a] s.pc s = true →
        ∃ u, AppliesWords [.miCo, .roIiCe, .miCo, .miRoCe, .roAi, .biK1, .riEoSu] s u ∧
          FlagsOf (m - 1#8, m == 0x00#8) u ∧ u.zf = (m == 0x01#8) ∧ AppliesWords [.stepReset] u t) ∧
      RegistersHold m 0x01#8 s.output t ∧ MemoryButAt a (m - 1#8) s t ∧
      LatchesHold 0xF2#8 a (m - 1#8) (s.pc + 2#8) t ∧
      FlagsOf (m + 1#8, m == 0xFF#8) t ∧ t.zf = (m == 0xFF#8) ∧ ClosedBy .stepReset t

/-- 44_control_transfer.md, JMP: five ticks, `pc` takes the operand byte. The spec marks the execute
rows and the gate as its own decisions D4 and D7. -/
def Obligations.JmpJumpsAlways : Prop :=
  ∀ (x : Nibble) (t : Byte) (s : State), AtBoundary s →
    encode (.jmp x t) = [0xA#4 ++ x, t] ∧
    ∃ r : State, exec (.jmp x t) s = .next r ∧
      (codeAt [0xA#4 ++ x, t] s.pc s = true →
        AppliesWords [.miCo, .roIiCe, .miCo, .roJ true, .stepReset] s r) ∧
      RegistersHold s.regA s.regB s.output r ∧ SameMemory s r ∧
      LatchesHold (0xA#4 ++ x) (s.pc + 1#8) t t r ∧
      FlagsOf (add8 s.regA s.regB) r ∧ ClosedBy .stepReset r

/-- 44_control_transfer.md, BNZ: five ticks, taken exactly when A + B is not 0 modulo 256, and the
operand is read either way. The spec marks the execute rows and the gate as its own decisions D1, D4
and D7. -/
def Obligations.BnzBranchesOnANonzeroSum : Prop :=
  ∀ (x : Nibble) (t : Byte) (s : State), AtBoundary s →
    let z := s.regA + s.regB == 0x00#8
    encode (.bnz x t) = [0xD#4 ++ x, t] ∧
    ∃ r : State, exec (.bnz x t) s = .next r ∧
      (codeAt [0xD#4 ++ x, t] s.pc s = true →
        AppliesWords [.miCo, .roIiCe, .miCo, .roJ (!z), .stepReset] s r) ∧
      RegistersHold s.regA s.regB s.output r ∧ SameMemory s r ∧
      LatchesHold (0xD#4 ++ x) (s.pc + 1#8) t (if z then s.pc + 2#8 else t) r ∧
      FlagsOf (add8 s.regA s.regB) r ∧ ClosedBy .stepReset r

/-- 44_control_transfer.md, JZ: five ticks, taken exactly when A + B is 0 modulo 256, and the
operand is read either way. The spec marks the execute rows and the gate as its own decisions D1, D4
and D7. -/
def Obligations.JzJumpsOnAZeroSum : Prop :=
  ∀ (x : Nibble) (t : Byte) (s : State), AtBoundary s →
    let z := s.regA + s.regB == 0x00#8
    encode (.jz x t) = [0xE#4 ++ x, t] ∧
    ∃ r : State, exec (.jz x t) s = .next r ∧
      (codeAt [0xE#4 ++ x, t] s.pc s = true →
        AppliesWords [.miCo, .roIiCe, .miCo, .roJ z, .stepReset] s r) ∧
      RegistersHold s.regA s.regB s.output r ∧ SameMemory s r ∧
      LatchesHold (0xE#4 ++ x) (s.pc + 1#8) t (if z then t else s.pc + 2#8) r ∧
      FlagsOf (add8 s.regA s.regB) r ∧ ClosedBy .stepReset r

/-- 44_control_transfer.md, JC: five ticks, taken exactly when A + B exceeds 255, and the operand is
read either way. The spec marks the execute rows and the gate as its own decisions D1, D4 and D7. -/
def Obligations.JcJumpsOnACarryingSum : Prop :=
  ∀ (t : Byte) (s : State), AtBoundary s →
    let c := decide (255 < s.regA.toNat + s.regB.toNat)
    encode (.jc t) = [0xF0#8, t] ∧
    ∃ r : State, exec (.jc t) s = .next r ∧
      (codeAt [0xF0#8, t] s.pc s = true →
        AppliesWords [.miCo, .roIiCe, .miCo, .roJ c, .stepReset] s r) ∧
      RegistersHold s.regA s.regB s.output r ∧ SameMemory s r ∧
      LatchesHold 0xF0#8 (s.pc + 1#8) t (if c then t else s.pc + 2#8) r ∧
      FlagsOf (add8 s.regA s.regB) r ∧ ClosedBy .stepReset r

/-- 45_system.md, OUT: four ticks, `output` takes `reg_a` already at the end of microstep 2. The
spec marks the execute rows as its own decision D4. -/
def Obligations.OutCopiesAToOutput : Prop :=
  ∀ s : State, AtBoundary s →
    encode .out = [0xF3#8] ∧
    ∃ t : State, exec .out s = .next t ∧
      (codeAt [0xF3#8] s.pc s = true →
        ∃ u, AppliesWords [.miCo, .roIiCe, .aoOi] s u ∧
          u.output = s.regA ∧ AppliesWords [.stepReset] u t) ∧
      RegistersHold s.regA s.regB s.regA t ∧ SameMemory s t ∧
      LatchesHold 0xF3#8 s.pc s.regA (s.pc + 1#8) t ∧
      FlagsOf (add8 s.regA s.regB) t ∧ ClosedBy .stepReset t

/-- 45_system.md, HLT: three ticks set `hlt` with `t_step` at 3, and no later tick changes the
state. That the fourth tick does nothing is the spec's own decision D3. -/
def Obligations.HltHaltsForGood : Prop :=
  ∀ s : State, AtBoundary s →
    encode .hlt = [0xFF#8] ∧
    ∃ t : State, exec .hlt s = .next t ∧
      (codeAt [0xFF#8] s.pc s = true →
        AppliesWords [.miCo, .roIiCe, .halt] s t) ∧
      RegistersHold s.regA s.regB s.output t ∧ SameMemory s t ∧
      LatchesHold 0xFF#8 s.pc 0xFF#8 (s.pc + 1#8) t ∧
      FlagsOf (add8 s.regA s.regB) t ∧ t.hlt = true ∧ t.tStep = 3#4 ∧ t.controlWord = .halt ∧
      ∀ n : Nat, runTicks n t = .next t

/-- 30_encoding.md section 5: each of the eleven unassigned opcode bytes is one byte long, takes three
ticks and does exactly what NOP does, with its own opcode byte in `ir` and on the bus. The length and
the duration are the spec's own decision D19. -/
def Obligations.UnassignedOpcodesBehaveAsNop : Prop :=
  ∀ q ∈ [(Instr.unassignedF4, 0xF4#8), (Instr.unassignedF5, 0xF5#8), (Instr.unassignedF6, 0xF6#8),
      (Instr.unassignedF7, 0xF7#8), (Instr.unassignedF8, 0xF8#8), (Instr.unassignedF9, 0xF9#8),
      (Instr.unassignedFA, 0xFA#8), (Instr.unassignedFB, 0xFB#8), (Instr.unassignedFC, 0xFC#8),
      (Instr.unassignedFD, 0xFD#8), (Instr.unassignedFE, 0xFE#8)],
    ∀ (x : Nibble) (s : State), AtBoundary s →
      encode q.1 = [q.2] ∧
      ∃ t n : State, exec q.1 s = .next t ∧ exec (.nop x) s = .next n ∧
        t = { n with ir := q.2, bus := q.2 } ∧
        (codeAt [q.2] s.pc s = true → AppliesWords [.miCo, .roIiCe, .stepReset] s t) ∧
        RegistersHold s.regA s.regB s.output t ∧ SameMemory s t ∧
        LatchesHold q.2 s.pc q.2 (s.pc + 1#8) t ∧ FlagsOf (add8 s.regA s.regB) t ∧
        ClosedBy .stepReset t

/-! ### The parameter INCDEC_REALISATION -/

/-- 00_scope.md section 3 and the spec's decision D6: the parameter decides runs too. The ROM of `k1` is
the whole table; that of `refuse` has no word with K1 and none that differs. Only INC and DEC have a
meaning that depends on the parameter. Under `refuse` a run that meets INC or DEC takes the two fetch
ticks and is refused at the third, and so is the step; every other cycle is that of `k1`. That `step`
and `runTicks` take `k1` is log entry 1; that a step is a cycle is log entry 2. -/
def Obligations.TheParameterDecidesRuns : Prop :=
  (∀ (cf zf : Bool) (selector : Selector) (t : Microstep),
    romAs .k1 cf zf selector t = some (rom cf zf selector t) ∧
    ∀ w, romAs .refuse cf zf selector t = some w → w = rom cf zf selector t ∧ w.k1 = false) ∧
  (∀ (p : IncDecRealisation) (i : Instr) (s : State), (∀ a, i ≠ .inc a ∧ i ≠ .dec a) →
    execAs p i s = exec i s) ∧
  (∀ s : State, stepAs .k1 s = step s ∧ ∀ n, runTicksAs .k1 n s = runTicks n s) ∧
  (∀ s : State, AtBoundary s → (s.memory.read s.pc = 0xF1#8 ∨ s.memory.read s.pc = 0xF2#8) →
    (∃ t, runTicksAs .refuse 2 s = .next t ∧ runTicks 2 s = .next t ∧ t.tStep = 2#4 ∧
      t.ir = s.memory.read s.pc) ∧
    (∀ n, runTicksAs .refuse (3 + n) s = .refused .incDecNotRealised) ∧
    stepAs .refuse s = .refused .incDecNotRealised) ∧
  (∀ s : State, AtBoundary s → s.memory.read s.pc ≠ 0xF1#8 → s.memory.read s.pc ≠ 0xF2#8 →
    stepAs .refuse s = step s ∧
      ∀ n, n ≤ 2 + executeCount (fetchInstr s) → runTicksAs .refuse n s = runTicks n s)

/-- 00_scope.md section 3 and the spec's decision D6: whole runs under `refuse`, of steps and of ticks,
from any state, agree with this machine's or are refused for INC or DEC, and for no other reason. This
machine takes `k1`, log entry 1. -/
def Obligations.RunsUnderRefuseAgreeOrStop : Prop :=
  ∀ (n : Nat) (s : State),
    (Host.Core.run (coreAs .refuse) n s = Host.Core.run Sys2Proof.core n s ∨
      Host.Core.run (coreAs .refuse) n s = .refused .incDecNotRealised) ∧
    (runTicksAs .refuse n s = runTicks n s ∨
      runTicksAs .refuse n s = .refused .incDecNotRealised)
end

