-- ==== Sys2Proof/Laws/Decode.lean ====
section
/-! SUPPORT. The bit fields of an opcode byte and the length of an instruction. -/

namespace Sys2Proof

@[simp] theorem highNibble_opcodeByte (op x : Nibble) : highNibble (opcodeByte op x) = op := by
  revert op x; decide

@[simp] theorem lowNibble_opcodeByte (op x : Nibble) : lowNibble (opcodeByte op x) = x := by
  revert op x; decide

/-- An opcode byte is its two nibbles. -/
@[simp] theorem opcodeByte_nibbles (b : Byte) : opcodeByte (highNibble b) (lowNibble b) = b := by
  revert b; decide

/-- The selector of a primary opcode is its high nibble: the low nibble is not decoded (R65). -/
theorem sel_opcodeByte {op : Nibble} (x : Nibble) (h : op ≠ 0xF#4) :
    sel (opcodeByte op x) = 0b0#1 ++ op := by
  simp [sel, h]

/-- `sel = 0x0F` is never produced (R63). -/
theorem sel_ne_0F (b : Byte) : sel b ≠ 0x0F#5 := by
  revert b; decide

theorem decode_one {op : Byte} (h : instrLength op = 1) (rest : List Byte) :
    decode (op :: rest) = .ok (decodePair op 0x00#8, rest) := by
  simp [decode, h]

theorem decode_two {op : Byte} (h : instrLength op ≠ 1) (d : Byte) (rest : List Byte) :
    decode (op :: d :: rest) = .ok (decodePair op d, rest) := by
  simp [decode, h]

end Sys2Proof
end

