-- ==== Sys2Proof/Laws/State.lean ====
section
/-! SUPPORT. One lemma per field for each update of the state: the seven steps of `apply`, the tick and the
end of an instruction cycle. All hold by definition, so that no later proof unfolds a record update. -/

namespace Sys2Proof.Machine

/-! ### Step 1, the ALU and the flags (R101, R102) -/

@[simp] theorem recompute_regA (su : Bool) (s : State) : (recompute su s).regA = s.regA := rfl
@[simp] theorem recompute_regB (su : Bool) (s : State) : (recompute su s).regB = s.regB := rfl
@[simp] theorem recompute_aluOut (su : Bool) (s : State) : (recompute su s).aluOut = (alu su s.regA s.regB).1 := rfl
@[simp] theorem recompute_cf (su : Bool) (s : State) : (recompute su s).cf = (alu su s.regA s.regB).2 := rfl
@[simp] theorem recompute_zf (su : Bool) (s : State) : (recompute su s).zf = ((alu su s.regA s.regB).1 == 0x00#8) := rfl
@[simp] theorem recompute_pc (su : Bool) (s : State) : (recompute su s).pc = s.pc := rfl
@[simp] theorem recompute_memory (su : Bool) (s : State) : (recompute su s).memory = s.memory := rfl
@[simp] theorem recompute_hlt (su : Bool) (s : State) : (recompute su s).hlt = s.hlt := rfl
@[simp] theorem recompute_tStep (su : Bool) (s : State) : (recompute su s).tStep = s.tStep := rfl
@[simp] theorem recompute_ir (su : Bool) (s : State) : (recompute su s).ir = s.ir := rfl
@[simp] theorem recompute_controlWord (su : Bool) (s : State) : (recompute su s).controlWord = s.controlWord := rfl
@[simp] theorem recompute_mar (su : Bool) (s : State) : (recompute su s).mar = s.mar := rfl
@[simp] theorem recompute_bus (su : Bool) (s : State) : (recompute su s).bus = s.bus := rfl
@[simp] theorem recompute_output (su : Bool) (s : State) : (recompute su s).output = s.output := rfl

/-! ### Step 2, the bus drivers (R103 to R105) -/

@[simp] theorem driveBus_regA (w : ControlWord) (s : State) : (driveBus w s).regA = s.regA := rfl
@[simp] theorem driveBus_regB (w : ControlWord) (s : State) : (driveBus w s).regB = s.regB := rfl
@[simp] theorem driveBus_aluOut (w : ControlWord) (s : State) : (driveBus w s).aluOut = s.aluOut := rfl
@[simp] theorem driveBus_cf (w : ControlWord) (s : State) : (driveBus w s).cf = s.cf := rfl
@[simp] theorem driveBus_zf (w : ControlWord) (s : State) : (driveBus w s).zf = s.zf := rfl
@[simp] theorem driveBus_pc (w : ControlWord) (s : State) : (driveBus w s).pc = s.pc := rfl
@[simp] theorem driveBus_memory (w : ControlWord) (s : State) : (driveBus w s).memory = s.memory := rfl
@[simp] theorem driveBus_hlt (w : ControlWord) (s : State) : (driveBus w s).hlt = s.hlt := rfl
@[simp] theorem driveBus_tStep (w : ControlWord) (s : State) : (driveBus w s).tStep = s.tStep := rfl
@[simp] theorem driveBus_ir (w : ControlWord) (s : State) : (driveBus w s).ir = s.ir := rfl
@[simp] theorem driveBus_controlWord (w : ControlWord) (s : State) : (driveBus w s).controlWord = s.controlWord := rfl
@[simp] theorem driveBus_mar (w : ControlWord) (s : State) : (driveBus w s).mar = s.mar := rfl
@[simp] theorem driveBus_bus (w : ControlWord) (s : State) : (driveBus w s).bus = 
    if w.k1 then 0x01#8 else if w.eo then s.aluOut else if w.ao then s.regA
    else if w.ro then s.memory.read s.mar else if w.co then s.pc else s.bus := rfl
@[simp] theorem driveBus_output (w : ControlWord) (s : State) : (driveBus w s).output = s.output := rfl

/-! ### Step 3, the latches (R106, R107) -/

@[simp] theorem latchInputs_regA (w : ControlWord) (s : State) : (latchInputs w s).regA = if w.ai then s.bus else s.regA := rfl
@[simp] theorem latchInputs_regB (w : ControlWord) (s : State) : (latchInputs w s).regB = if w.bi then s.bus else s.regB := rfl
@[simp] theorem latchInputs_aluOut (w : ControlWord) (s : State) : (latchInputs w s).aluOut = s.aluOut := rfl
@[simp] theorem latchInputs_cf (w : ControlWord) (s : State) : (latchInputs w s).cf = s.cf := rfl
@[simp] theorem latchInputs_zf (w : ControlWord) (s : State) : (latchInputs w s).zf = s.zf := rfl
@[simp] theorem latchInputs_pc (w : ControlWord) (s : State) : (latchInputs w s).pc = s.pc := rfl
@[simp] theorem latchInputs_memory (w : ControlWord) (s : State) : (latchInputs w s).memory = 
    if w.ri then s.memory.write (if w.mi then s.bus else s.mar) s.bus else s.memory := rfl
@[simp] theorem latchInputs_hlt (w : ControlWord) (s : State) : (latchInputs w s).hlt = s.hlt := rfl
@[simp] theorem latchInputs_tStep (w : ControlWord) (s : State) : (latchInputs w s).tStep = s.tStep := rfl
@[simp] theorem latchInputs_ir (w : ControlWord) (s : State) : (latchInputs w s).ir = if w.ii then s.bus else s.ir := rfl
@[simp] theorem latchInputs_controlWord (w : ControlWord) (s : State) : (latchInputs w s).controlWord = s.controlWord := rfl
@[simp] theorem latchInputs_mar (w : ControlWord) (s : State) : (latchInputs w s).mar = if w.mi then s.bus else s.mar := rfl
@[simp] theorem latchInputs_bus (w : ControlWord) (s : State) : (latchInputs w s).bus = s.bus := rfl
@[simp] theorem latchInputs_output (w : ControlWord) (s : State) : (latchInputs w s).output = 
    if w.oi then s.bus else s.output := rfl

/-! ### Step 4, counter enable (R108) -/

@[simp] theorem countUp_regA (w : ControlWord) (s : State) : (countUp w s).regA = s.regA := rfl
@[simp] theorem countUp_regB (w : ControlWord) (s : State) : (countUp w s).regB = s.regB := rfl
@[simp] theorem countUp_aluOut (w : ControlWord) (s : State) : (countUp w s).aluOut = s.aluOut := rfl
@[simp] theorem countUp_cf (w : ControlWord) (s : State) : (countUp w s).cf = s.cf := rfl
@[simp] theorem countUp_zf (w : ControlWord) (s : State) : (countUp w s).zf = s.zf := rfl
@[simp] theorem countUp_pc (w : ControlWord) (s : State) : (countUp w s).pc = if w.ce then inc8 s.pc else s.pc := rfl
@[simp] theorem countUp_memory (w : ControlWord) (s : State) : (countUp w s).memory = s.memory := rfl
@[simp] theorem countUp_hlt (w : ControlWord) (s : State) : (countUp w s).hlt = s.hlt := rfl
@[simp] theorem countUp_tStep (w : ControlWord) (s : State) : (countUp w s).tStep = s.tStep := rfl
@[simp] theorem countUp_ir (w : ControlWord) (s : State) : (countUp w s).ir = s.ir := rfl
@[simp] theorem countUp_controlWord (w : ControlWord) (s : State) : (countUp w s).controlWord = s.controlWord := rfl
@[simp] theorem countUp_mar (w : ControlWord) (s : State) : (countUp w s).mar = s.mar := rfl
@[simp] theorem countUp_bus (w : ControlWord) (s : State) : (countUp w s).bus = s.bus := rfl
@[simp] theorem countUp_output (w : ControlWord) (s : State) : (countUp w s).output = s.output := rfl

/-! ### Step 5, jump (R109) -/

@[simp] theorem jump_regA (w : ControlWord) (s : State) : (jump w s).regA = s.regA := rfl
@[simp] theorem jump_regB (w : ControlWord) (s : State) : (jump w s).regB = s.regB := rfl
@[simp] theorem jump_aluOut (w : ControlWord) (s : State) : (jump w s).aluOut = s.aluOut := rfl
@[simp] theorem jump_cf (w : ControlWord) (s : State) : (jump w s).cf = s.cf := rfl
@[simp] theorem jump_zf (w : ControlWord) (s : State) : (jump w s).zf = s.zf := rfl
@[simp] theorem jump_pc (w : ControlWord) (s : State) : (jump w s).pc = 
    if w.j then (if w.fg then s.bus else inc8 s.pc) else s.pc := rfl
@[simp] theorem jump_memory (w : ControlWord) (s : State) : (jump w s).memory = s.memory := rfl
@[simp] theorem jump_hlt (w : ControlWord) (s : State) : (jump w s).hlt = s.hlt := rfl
@[simp] theorem jump_tStep (w : ControlWord) (s : State) : (jump w s).tStep = s.tStep := rfl
@[simp] theorem jump_ir (w : ControlWord) (s : State) : (jump w s).ir = s.ir := rfl
@[simp] theorem jump_controlWord (w : ControlWord) (s : State) : (jump w s).controlWord = s.controlWord := rfl
@[simp] theorem jump_mar (w : ControlWord) (s : State) : (jump w s).mar = s.mar := rfl
@[simp] theorem jump_bus (w : ControlWord) (s : State) : (jump w s).bus = s.bus := rfl
@[simp] theorem jump_output (w : ControlWord) (s : State) : (jump w s).output = s.output := rfl

/-! ### Step 6, step reset (R110) -/

@[simp] theorem stepResetStage_regA (w : ControlWord) (s : State) : (stepResetStage w s).regA = s.regA := rfl
@[simp] theorem stepResetStage_regB (w : ControlWord) (s : State) : (stepResetStage w s).regB = s.regB := rfl
@[simp] theorem stepResetStage_aluOut (w : ControlWord) (s : State) : (stepResetStage w s).aluOut = s.aluOut := rfl
@[simp] theorem stepResetStage_cf (w : ControlWord) (s : State) : (stepResetStage w s).cf = s.cf := rfl
@[simp] theorem stepResetStage_zf (w : ControlWord) (s : State) : (stepResetStage w s).zf = s.zf := rfl
@[simp] theorem stepResetStage_pc (w : ControlWord) (s : State) : (stepResetStage w s).pc = s.pc := rfl
@[simp] theorem stepResetStage_memory (w : ControlWord) (s : State) : (stepResetStage w s).memory = s.memory := rfl
@[simp] theorem stepResetStage_hlt (w : ControlWord) (s : State) : (stepResetStage w s).hlt = s.hlt := rfl
@[simp] theorem stepResetStage_tStep (w : ControlWord) (s : State) : (stepResetStage w s).tStep = 
    if w.sr then 0#4 else s.tStep := rfl
@[simp] theorem stepResetStage_ir (w : ControlWord) (s : State) : (stepResetStage w s).ir = s.ir := rfl
@[simp] theorem stepResetStage_controlWord (w : ControlWord) (s : State) : (stepResetStage w s).controlWord = s.controlWord := rfl
@[simp] theorem stepResetStage_mar (w : ControlWord) (s : State) : (stepResetStage w s).mar = s.mar := rfl
@[simp] theorem stepResetStage_bus (w : ControlWord) (s : State) : (stepResetStage w s).bus = s.bus := rfl
@[simp] theorem stepResetStage_output (w : ControlWord) (s : State) : (stepResetStage w s).output = s.output := rfl

/-! ### Step 7, halt (R111) -/

@[simp] theorem haltStage_regA (w : ControlWord) (s : State) : (haltStage w s).regA = s.regA := rfl
@[simp] theorem haltStage_regB (w : ControlWord) (s : State) : (haltStage w s).regB = s.regB := rfl
@[simp] theorem haltStage_aluOut (w : ControlWord) (s : State) : (haltStage w s).aluOut = s.aluOut := rfl
@[simp] theorem haltStage_cf (w : ControlWord) (s : State) : (haltStage w s).cf = s.cf := rfl
@[simp] theorem haltStage_zf (w : ControlWord) (s : State) : (haltStage w s).zf = s.zf := rfl
@[simp] theorem haltStage_pc (w : ControlWord) (s : State) : (haltStage w s).pc = s.pc := rfl
@[simp] theorem haltStage_memory (w : ControlWord) (s : State) : (haltStage w s).memory = s.memory := rfl
@[simp] theorem haltStage_hlt (w : ControlWord) (s : State) : (haltStage w s).hlt = if w.hlt then true else s.hlt := rfl
@[simp] theorem haltStage_tStep (w : ControlWord) (s : State) : (haltStage w s).tStep = s.tStep := rfl
@[simp] theorem haltStage_ir (w : ControlWord) (s : State) : (haltStage w s).ir = s.ir := rfl
@[simp] theorem haltStage_controlWord (w : ControlWord) (s : State) : (haltStage w s).controlWord = s.controlWord := rfl
@[simp] theorem haltStage_mar (w : ControlWord) (s : State) : (haltStage w s).mar = s.mar := rfl
@[simp] theorem haltStage_bus (w : ControlWord) (s : State) : (haltStage w s).bus = s.bus := rfl
@[simp] theorem haltStage_output (w : ControlWord) (s : State) : (haltStage w s).output = s.output := rfl

/-! ### The end of an instruction cycle (R114, R120) -/

@[simp] theorem endCycle_regA (w : ControlWord) (op mar bus pc : Byte) (s : State) : (endCycle w op mar bus pc s).regA = s.regA := rfl
@[simp] theorem endCycle_regB (w : ControlWord) (op mar bus pc : Byte) (s : State) : (endCycle w op mar bus pc s).regB = s.regB := rfl
@[simp] theorem endCycle_aluOut (w : ControlWord) (op mar bus pc : Byte) (s : State) : (endCycle w op mar bus pc s).aluOut = 
    (alu w.su s.regA s.regB).1 := rfl
@[simp] theorem endCycle_cf (w : ControlWord) (op mar bus pc : Byte) (s : State) : (endCycle w op mar bus pc s).cf = 
    (alu w.su s.regA s.regB).2 := rfl
@[simp] theorem endCycle_zf (w : ControlWord) (op mar bus pc : Byte) (s : State) : (endCycle w op mar bus pc s).zf = 
    ((alu w.su s.regA s.regB).1 == 0x00#8) := rfl
@[simp] theorem endCycle_pc (w : ControlWord) (op mar bus pc : Byte) (s : State) : (endCycle w op mar bus pc s).pc = pc := rfl
@[simp] theorem endCycle_memory (w : ControlWord) (op mar bus pc : Byte) (s : State) : (endCycle w op mar bus pc s).memory = s.memory := rfl
@[simp] theorem endCycle_hlt (w : ControlWord) (op mar bus pc : Byte) (s : State) : (endCycle w op mar bus pc s).hlt = s.hlt := rfl
@[simp] theorem endCycle_tStep (w : ControlWord) (op mar bus pc : Byte) (s : State) : (endCycle w op mar bus pc s).tStep = 0#4 := rfl
@[simp] theorem endCycle_ir (w : ControlWord) (op mar bus pc : Byte) (s : State) : (endCycle w op mar bus pc s).ir = op := rfl
@[simp] theorem endCycle_controlWord (w : ControlWord) (op mar bus pc : Byte) (s : State) : (endCycle w op mar bus pc s).controlWord = w := rfl
@[simp] theorem endCycle_mar (w : ControlWord) (op mar bus pc : Byte) (s : State) : (endCycle w op mar bus pc s).mar = mar := rfl
@[simp] theorem endCycle_bus (w : ControlWord) (op mar bus pc : Byte) (s : State) : (endCycle w op mar bus pc s).bus = bus := rfl
@[simp] theorem endCycle_output (w : ControlWord) (op mar bus pc : Byte) (s : State) : (endCycle w op mar bus pc s).output = s.output := rfl

/-! ### A table word at the program counter -/

@[simp] theorem placeTableWord_regA (s : State) (n v : Nat) : (placeTableWord s n v).regA = s.regA := rfl
@[simp] theorem placeTableWord_regB (s : State) (n v : Nat) : (placeTableWord s n v).regB = s.regB := rfl
@[simp] theorem placeTableWord_aluOut (s : State) (n v : Nat) : (placeTableWord s n v).aluOut = s.aluOut := rfl
@[simp] theorem placeTableWord_cf (s : State) (n v : Nat) : (placeTableWord s n v).cf = s.cf := rfl
@[simp] theorem placeTableWord_zf (s : State) (n v : Nat) : (placeTableWord s n v).zf = s.zf := rfl
@[simp] theorem placeTableWord_pc (s : State) (n v : Nat) : (placeTableWord s n v).pc = s.pc := rfl
@[simp] theorem placeTableWord_memory (s : State) (n v : Nat) : (placeTableWord s n v).memory = 
    (s.memory.write s.pc (tableWordBytes n v).1).write (inc8 s.pc) (tableWordBytes n v).2 := rfl
@[simp] theorem placeTableWord_hlt (s : State) (n v : Nat) : (placeTableWord s n v).hlt = false := rfl
@[simp] theorem placeTableWord_tStep (s : State) (n v : Nat) : (placeTableWord s n v).tStep = 0#4 := rfl
@[simp] theorem placeTableWord_ir (s : State) (n v : Nat) : (placeTableWord s n v).ir = s.ir := rfl
@[simp] theorem placeTableWord_controlWord (s : State) (n v : Nat) : (placeTableWord s n v).controlWord = s.controlWord := rfl
@[simp] theorem placeTableWord_mar (s : State) (n v : Nat) : (placeTableWord s n v).mar = s.mar := rfl
@[simp] theorem placeTableWord_bus (s : State) (n v : Nat) : (placeTableWord s n v).bus = s.bus := rfl
@[simp] theorem placeTableWord_output (s : State) (n v : Nat) : (placeTableWord s n v).output = s.output := rfl

/-! ### The tick under a given word (R80, R82, R113) -/

@[simp] theorem tickWith_controlWord (w : ControlWord) (s : State) :
    (tickWith w s).controlWord = w := rfl

@[simp] theorem tickWith_tStep (w : ControlWord) (s : State) :
    (tickWith w s).tStep = if w.sr then 0#4 else s.tStep + 1#4 := rfl

@[simp] theorem tickWith_hlt (w : ControlWord) (s : State) :
    (tickWith w s).hlt = if w.hlt then true else s.hlt := rfl

@[simp] theorem tickWith_aluOut (w : ControlWord) (s : State) :
    (tickWith w s).aluOut = (alu w.su s.regA s.regB).1 := rfl

@[simp] theorem tickWith_cf (w : ControlWord) (s : State) :
    (tickWith w s).cf = (alu w.su s.regA s.regB).2 := rfl

@[simp] theorem tickWith_zf (w : ControlWord) (s : State) :
    (tickWith w s).zf = ((alu w.su s.regA s.regB).1 == 0x00#8) := rfl

@[simp] theorem alu_false (a b : Byte) : alu false a b = add8 a b := rfl

@[simp] theorem alu_true (a b : Byte) : alu true a b = sub8 a b := rfl

end Sys2Proof.Machine
end

