-- ==== Sys2Proof/Laws/Memory.lean ====
section
/-! SUPPORT. The laws of memory: what a read gives after a write (R49), and that every operation keeps the
canonical form (log entry 4). -/

namespace Sys2Proof.Machine

@[simp] theorem Memory.lookup_nil (n : Nat) : Memory.lookup [] n = Memory.unlisted := rfl

theorem Memory.lookup_filter_self (m : Memory) (n : Nat) :
    Memory.lookup (m.filter (fun c => c.1 != n)) n = Memory.unlisted := by
  induction m with
  | nil => rfl
  | cons c rest ih =>
    obtain ⟨k, v⟩ := c
    by_cases h : k = n <;> simp [h, ih, Memory.lookup]

theorem Memory.lookup_filter_other (m : Memory) {n b : Nat} (hb : b ≠ n) :
    Memory.lookup (m.filter (fun c => c.1 != n)) b = Memory.lookup m b := by
  induction m with
  | nil => rfl
  | cons c rest ih =>
    obtain ⟨k, v⟩ := c
    by_cases h : k = n
    · subst h; simp [ih, Memory.lookup, hb.symm]
    · simp [h, ih, Memory.lookup]

theorem Memory.lookup_place_self (m : Memory) (n : Nat) (v : Byte)
    (h0 : ∀ c ∈ m, c.1 ≠ n) : Memory.lookup (Memory.place m n v) n = v := by
  induction m with
  | nil => simp [Memory.place, Memory.lookup]
  | cons c rest ih =>
    obtain ⟨k, w⟩ := c
    simp only [List.mem_cons, forall_eq_or_imp] at h0
    by_cases hk : n < k
    · simp [Memory.place, hk, Memory.lookup]
    · simp [Memory.place, hk, Memory.lookup, h0.1, ih h0.2]

theorem Memory.lookup_place_other (m : Memory) {n b : Nat} (v : Byte) (hb : b ≠ n) :
    Memory.lookup (Memory.place m n v) b = Memory.lookup m b := by
  induction m with
  | nil => simp [Memory.place, Memory.lookup, hb.symm]
  | cons c rest ih =>
    obtain ⟨k, w⟩ := c
    by_cases hk : n < k
    · simp [Memory.place, hk, Memory.lookup, hb.symm]
    · simp [Memory.place, hk, Memory.lookup, ih]

/-- A read gives the value last written there (R49). -/
@[simp] theorem Memory.read_write_same (m : Memory) (a v : Byte) : (m.write a v).read a = v := by
  unfold Memory.write Memory.read
  by_cases hv : v = Memory.unlisted
  · simp [hv, Memory.lookup_filter_self]
  · simp only [hv, if_false]
    exact Memory.lookup_place_self _ _ _ (by simp)

/-- A write leaves every other byte alone (R54). -/
theorem Memory.read_write_other (m : Memory) {a b : Byte} (v : Byte) (hb : b ≠ a) :
    (m.write a v).read b = m.read b := by
  have hn : b.toNat ≠ a.toNat := fun h => hb (BitVec.eq_of_toNat_eq h)
  unfold Memory.write Memory.read
  by_cases hv : v = Memory.unlisted
  · simp [hv, Memory.lookup_filter_other _ hn]
  · simp [hv, Memory.lookup_place_other _ v hn, Memory.lookup_filter_other _ hn]

/-- What a byte reads as after a write: both cases at once. -/
theorem Memory.read_write (m : Memory) (a b v : Byte) :
    (m.write a v).read b = if b = a then v else m.read b := by
  by_cases h : b = a
  · simp [h]
  · simp [h, Memory.read_write_other m v h]

@[simp] theorem Memory.read_nil (b : Byte) : Memory.read [] b = 0x00#8 := rfl

/-! ### The canonical form -/

theorem Memory.wfFrom_mono {lo lo' : Nat} {m : Memory} (h : Memory.wfFrom lo m = true)
    (hl : lo' ≤ lo) : Memory.wfFrom lo' m = true := by
  cases m with
  | nil => rfl
  | cons c rest =>
    obtain ⟨k, v⟩ := c
    simp only [Memory.wfFrom, Bool.and_eq_true, decide_eq_true_eq] at h ⊢
    exact ⟨⟨⟨hl.trans h.1.1.1, h.1.1.2⟩, h.1.2⟩, h.2⟩

theorem Memory.wfFrom_filter (n lo : Nat) (m : Memory) (h : Memory.wfFrom lo m = true) :
    Memory.wfFrom lo (m.filter (fun c => c.1 != n)) = true := by
  induction m generalizing lo with
  | nil => rfl
  | cons c rest ih =>
    obtain ⟨k, v⟩ := c
    simp only [Memory.wfFrom, Bool.and_eq_true, decide_eq_true_eq] at h
    by_cases hk : k = n
    · simp only [hk, List.filter_cons, bne_self_eq_false, Bool.false_eq_true, if_false]
      exact Memory.wfFrom_mono (hk ▸ ih _ h.2) (by omega)
    · simp only [List.filter_cons, bne_iff_ne, ne_eq, hk, not_false_eq_true, if_true,
        Memory.wfFrom, Bool.and_eq_true, decide_eq_true_eq]
      exact ⟨⟨h.1.1, by simpa using h.1.2⟩, ih _ h.2⟩

theorem Memory.wfFrom_place (n lo : Nat) (v : Byte) (m : Memory) (h : Memory.wfFrom lo m = true)
    (hlo : lo ≤ n) (hn : n < Config.memorySize) (hv : v ≠ Memory.unlisted)
    (h0 : ∀ c ∈ m, c.1 ≠ n) : Memory.wfFrom lo (Memory.place m n v) = true := by
  induction m generalizing lo with
  | nil => simp [Memory.place, Memory.wfFrom, hlo, hn, hv]
  | cons c rest ih =>
    obtain ⟨k, w⟩ := c
    simp only [List.mem_cons, forall_eq_or_imp] at h0
    simp only [Memory.wfFrom, Bool.and_eq_true, decide_eq_true_eq] at h
    by_cases hk : n < k
    · simp only [Memory.place, hk, if_true, Memory.wfFrom, Bool.and_eq_true, decide_eq_true_eq,
        bne_iff_ne, ne_eq]
      exact ⟨⟨⟨hlo, hn⟩, hv⟩, ⟨⟨hk, h.1.1.2⟩, by simpa using h.1.2⟩, h.2⟩
    · have hkn : k + 1 ≤ n := by have := h0.1; omega
      simp only [Memory.place, hk, if_false, Memory.wfFrom, Bool.and_eq_true, decide_eq_true_eq]
      exact ⟨h.1, ih _ h.2 hkn h0.2⟩

/-- A write keeps the canonical form. -/
theorem Memory.wf_write (m : Memory) (a v : Byte) (h : m.wf = true) : (m.write a v).wf = true := by
  unfold Memory.wf at h ⊢
  unfold Memory.write
  by_cases hv : v = Memory.unlisted
  · simp only [hv, if_true]
    exact Memory.wfFrom_filter _ _ _ h
  · simp only [hv, if_false]
    exact Memory.wfFrom_place _ _ _ _ (Memory.wfFrom_filter _ _ _ h) (Nat.zero_le _) a.isLt hv
      (by simp)

/-- A bulk write keeps the canonical form. -/
theorem Memory.wf_writeAll (m : Memory) (n : Nat) (bytes : List Byte) (h : m.wf = true) :
    (Memory.writeAll m n bytes).wf = true := by
  induction bytes generalizing m n with
  | nil => exact h
  | cons b rest ih => exact ih _ _ (Memory.wf_write _ _ _ h)

/-- The reset memory has the canonical form. -/
theorem State.reset_memory_wf : State.reset.memory.wf = true := rfl

/-- The signal interpreter keeps the canonical form, whatever the word. -/
theorem tickWith_wf (w : ControlWord) (s : State) (h : s.memory.wf = true) :
    (tickWith w s).memory.wf = true := by
  simp only [tickWith, applyWord, haltStage_memory, stepResetStage_memory, jump_memory,
    countUp_memory, latchInputs_memory, driveBus_memory, recompute_memory]
  split
  · exact Memory.wf_write _ _ _ h
  · exact h

/-- Placing a table word keeps the canonical form. -/
theorem placeTableWord_wf (s : State) (n v : Nat) (h : s.memory.wf = true) :
    (placeTableWord s n v).memory.wf = true :=
  Memory.wf_write _ _ _ (Memory.wf_write _ _ _ h)

/-- A program load keeps the canonical form. -/
theorem loadProgram_wf {image : List Byte} {s t : State} (hl : loadProgram image s = .next t)
    (h : s.memory.wf = true) : t.memory.wf = true := by
  unfold loadProgram at hl
  split at hl
  · split at hl
    · cases hl
      exact Memory.wf_writeAll _ _ _ h
    · cases hl
  · cases hl

end Sys2Proof.Machine
end

