-- ==== Sys2Proof/Laws/Tick.lean ====
section
/-! SUPPORT. What a tick, a run of ticks, a step and the host's operations can do, said once. Later proofs
cite these and do not unfold the operations. -/

namespace Sys2Proof.Machine

/-- A tick of a halted machine changes nothing (R81). -/
theorem tickAs_halted (p : IncDecRealisation) {s : State} (h : s.hlt = true) :
    tickAs p s = .next s := by
  simp [tickAs, h]

/-- Under `k1` a tick of a running machine applies the word that the decoder gives (R80). -/
theorem tickAs_k1_running {s : State} (h : s.hlt = false) :
    tickAs .k1 s = .next (tickWith (nextWord s) s) := by
  simp [tickAs, decodeControlAs, romAs, h, unrealised, nextWord, decodeControl]

/-- A tick of a halted machine changes nothing (R81). -/
theorem tick_halted {s : State} (h : s.hlt = true) : tick s = .next s := tickAs_halted _ h

/-- A tick of a running machine applies the word that the decoder gives (R80). -/
theorem tick_running {s : State} (h : s.hlt = false) :
    tick s = .next (tickWith (nextWord s) s) := tickAs_k1_running h

/-- Everything a tick can do. -/
theorem tick_next_iff {s t : State} :
    tick s = .next t ↔
      (s.hlt = true ∧ t = s) ∨ (s.hlt = false ∧ t = tickWith (nextWord s) s) := by
  cases h : s.hlt with
  | true => simp [tick_halted h, eq_comm]
  | false => simp [tick_running h, eq_comm]

/-- Under `refuse` a tick of a running machine is refused in INC's and DEC's rows and is the `k1` tick
everywhere else (R8). -/
theorem tickAs_refuse_running {s : State} (h : s.hlt = false) :
    tickAs .refuse s = if unrealised .refuse (sel s.ir) s.tStep then .refused .incDecNotRealised
      else .next (tickWith (nextWord s) s) := by
  unfold tickAs decodeControlAs romAs
  cases unrealised .refuse (sel s.ir) s.tStep <;> simp [h, nextWord, decodeControl]

@[simp] theorem runTicksAs_zero (p : IncDecRealisation) (s : State) : runTicksAs p 0 s = .next s := rfl

/-- The first of a run of ticks. -/
theorem runTicksAs_next {p : IncDecRealisation} {s t : State} (n : Nat) (h : tickAs p s = .next t) :
    runTicksAs p (n + 1) s = runTicksAs p n t := by
  simp [runTicksAs, h]

/-- A refused tick refuses the run. -/
theorem runTicksAs_refused {p : IncDecRealisation} {s : State} {r : Refusal} (n : Nat)
    (h : tickAs p s = .refused r) : runTicksAs p (n + 1) s = .refused r := by
  simp [runTicksAs, h]

/-- The first of a run of ticks of this machine. -/
theorem runTicks_next {s t : State} (n : Nat) (h : tick s = .next t) :
    runTicks (n + 1) s = runTicks n t := runTicksAs_next n h

@[simp] theorem runTicks_zero (s : State) : runTicks 0 s = .next s := rfl

/-- The first of a run of ticks, on a running machine. -/
theorem runTicks_succ {n : Nat} {s : State} (h : s.hlt = false) :
    runTicks (n + 1) s = runTicks n (tickWith (nextWord s) s) := by
  exact runTicks_next n (tick_running h)

/-- No number of ticks changes a halted machine (R81, R204). -/
theorem runTicks_halted (n : Nat) {s : State} (h : s.hlt = true) : runTicks n s = .next s := by
  induction n with
  | zero => rfl
  | succ n ih => rw [runTicks_next n (tick_halted h), ih]

/-- A run of ticks in two parts. -/
theorem runTicks_add {m n : Nat} {s t : State} (h : runTicks m s = .next t) :
    runTicks (m + n) s = runTicks n t := by
  induction m generalizing s with
  | zero => cases h; rw [Nat.zero_add]
  | succ m ih =>
    rw [Nat.add_right_comm]
    cases hh : s.hlt with
    | true =>
      rw [runTicks_halted _ hh] at h
      cases h
      rw [runTicks_halted _ hh, runTicks_halted _ hh]
    | false =>
      rw [runTicks_succ hh] at h ⊢
      exact ih h

/-- One round of completing a cycle, on a running machine. -/
theorem ticksToBoundary_succ {n : Nat} {s : State} (h : s.hlt = false) :
    ticksToBoundary (n + 1) s =
      if (tickWith (nextWord s) s).tStep = 0#4 ∨ (tickWith (nextWord s) s).hlt = true
      then .next (tickWith (nextWord s) s)
      else ticksToBoundary n (tickWith (nextWord s) s) := by
  have h' : tickAs Config.incDecRealisation s = .next (tickWith (nextWord s) s) := tick_running h
  simp only [ticksToBoundary, ticksToBoundaryAs, h']

/-- A step of a halted machine changes nothing (R81). -/
theorem step_halted {s : State} (h : s.hlt = true) : step s = .next s := by
  simp [step, h]

/-- A step at a boundary is the instruction at the program counter. -/
theorem step_boundary {s : State} (h : s.hlt = false) (ht : s.tStep = 0#4) :
    step s = exec (fetchInstr s) s := by
  simp [step, h, ht]

/-- A step between boundaries completes the cycle under way. -/
theorem step_midCycle {s : State} (h : s.hlt = false) (ht : s.tStep ≠ 0#4) :
    step s = finishCycle s := by
  simp [step, h, ht]

/-- Everything a program load can do (R53, R183). -/
theorem loadProgram_next_iff {image : List Byte} {s t : State} :
    loadProgram image s = .next t ↔
      imageFits image = true ∧ s = State.reset ∧
        t = { s with memory := Memory.writeAll s.memory 0 image } := by
  unfold loadProgram
  by_cases h1 : imageFits image = true <;> by_cases h2 : s = State.reset <;>
    simp [h1, h2, eq_comm]

end Sys2Proof.Machine
end

