-- ==== Sys2Proof/Laws/Cycle.lean ====
section
/-! SUPPORT. What the terms of Safety.lean mean in one line each: runs of named control words, the first two
microsteps of every cycle, the selectors of the opcode bytes, and the arithmetic of the flags. -/

namespace Sys2Proof

open Machine

/-! ### Runs of named control words -/

@[simp] theorem appliesWords_nil (s t : State) : AppliesWords [] s t ↔ t = s := Iff.rfl

/-- The first word of a run, on a running machine. -/
theorem appliesWords_cons (w : ControlWord) (ws : List ControlWord) {s : State} (t : State)
    (h : s.hlt = false) :
    AppliesWords (w :: ws) s t ↔ nextWord s = w ∧ AppliesWords ws (tickWith (nextWord s) s) t := by
  constructor
  · rintro ⟨u, -, hu, hw, hr⟩
    rw [tick_running h] at hu
    cases hu
    exact ⟨hw, hr⟩
  · rintro ⟨hw, hr⟩
    exact ⟨_, h, tick_running h, hw, hr⟩

/-- Two runs one after the other are one run. -/
theorem appliesWords_append {ws vs : List ControlWord} {s u t : State} (h : AppliesWords ws s u)
    (h' : AppliesWords vs u t) : AppliesWords (ws ++ vs) s t := by
  induction ws generalizing s with
  | nil => cases h; exact h'
  | cons w ws ih =>
    obtain ⟨v, hh, hu, hw, hr⟩ := h
    exact ⟨v, hh, hu, hw, ih hr⟩

/-- A run of named words is a run of that many ticks. -/
theorem AppliesWords.runTicks {ws : List ControlWord} {s t : State} (h : AppliesWords ws s t) :
    Machine.runTicks ws.length s = .next t := by
  induction ws generalizing s with
  | nil => cases h; rfl
  | cons w ws ih =>
    obtain ⟨u, _, hu, _, hr⟩ := h
    exact (runTicks_next _ hu).trans (ih hr)

/-- One more tick at the end of a run. -/
theorem runTicks_snoc {n : Nat} {s u v : State} (h : runTicks n s = .next u)
    (h' : tick u = .next v) : runTicks (n + 1) s = .next v := by
  rw [runTicks_add h]
  exact runTicks_next 0 h'

/-! ### The fetch -/

@[simp] theorem decodeControl_zero (ir : Byte) (cf zf : Bool) :
    decodeControl ir 0#4 cf zf = .miCo := rfl

@[simp] theorem decodeControl_one (ir : Byte) (cf zf : Bool) :
    decodeControl ir 1#4 cf zf = .roIiCe := rfl

@[simp] theorem codeAt_one (op p : Byte) (s : State) :
    codeAt [op] p s = true ↔ s.memory.read p = op := by
  simp [codeAt]

@[simp] theorem codeAt_two (op d p : Byte) (s : State) :
    codeAt [op, d] p s = true ↔ s.memory.read p = op ∧ s.memory.read (p + 1#8) = d := by
  simp [codeAt]

/-! ### The selectors -/

/-- The selector of a primary opcode, as the encoding writes its byte. -/
theorem sel_append {op : Nibble} (x : Nibble) (h : op ≠ 0xF#4) : sel (op ++ x) = 0b0#1 ++ op :=
  sel_opcodeByte x h

/-- The selector of an extended opcode. -/
theorem sel_extended (x : Nibble) : sel (0xF#4 ++ x) = 0b1#1 ++ x := by
  revert x; decide

/-! ### The arithmetic of the flags -/

theorem inc8_eq (a : Byte) : inc8 a = a + 1#8 := rfl

/-- The carry of a difference with its subtrahend is the borrow of the difference. -/
theorem carry_of_difference (a b : Byte) :
    255 < (a - b).toNat + b.toNat ↔ a.toNat < b.toNat := by
  have := a.isLt
  have := b.isLt
  rw [BitVec.toNat_sub]
  omega

theorem difference_zero (a b : Byte) : a - b = 0x00#8 ↔ a = b := by
  constructor
  · intro h
    have := congrArg (· + b) h
    simpa using this
  · rintro rfl
    simp

end Sys2Proof
end

