-- ==== Sys2Proof/Laws/Parameter.lean ====
section
/-! SUPPORT. The machine that Config names is the parametrised one at its value, and what a step under either
value can do. -/

namespace Sys2Proof.Machine

/-- `exec` is the parametrised meaning at the value that Config names. -/
theorem execAs_config (i : Instr) (s : State) : execAs Config.incDecRealisation i s = exec i s := by
  cases i <;> rfl

/-- `step` is the parametrised step at the value that Config names. -/
theorem stepAs_config (s : State) : stepAs Config.incDecRealisation s = step s := by
  simp only [stepAs, step, execAs_config, finishCycle]

/-- `core` is the parametrised machine at the value that Config names. -/
theorem coreAs_config : coreAs Config.incDecRealisation = Sys2Proof.core := by
  unfold coreAs Sys2Proof.core
  rw [funext stepAs_config]

/-- A step of a halted machine changes nothing, under either value (R81). -/
theorem stepAs_halted (p : IncDecRealisation) {s : State} (h : s.hlt = true) :
    stepAs p s = .next s := by
  simp [stepAs, h]

/-- A step at a boundary is the instruction at the program counter, under either value. -/
theorem stepAs_boundary (p : IncDecRealisation) {s : State} (h : s.hlt = false) (ht : s.tStep = 0#4) :
    stepAs p s = execAs p (fetchInstr s) s := by
  simp [stepAs, h, ht]

/-- A step between boundaries completes the cycle under way, under either value. -/
theorem stepAs_midCycle (p : IncDecRealisation) {s : State} (h : s.hlt = false) (ht : s.tStep ≠ 0#4) :
    stepAs p s = finishCycleAs p s := by
  simp [stepAs, h, ht]

end Sys2Proof.Machine
end

