-- ==== Sys2Proof/Laws/PerInstr.lean ====
section
/-! SUPPORT. Facts about every instruction as syntax, one lemma per constructor. -/

namespace Sys2Proof.Laws

/-- The number of bytes of the encoding is the length that the opcode byte alone gives (R61, R68). -/
def EncodedLength.Statement (i : Instr) : Prop := (encode i).length = instrLength i.opcode

/-- The opcode byte selects a microcode row with the instruction's own number of execute microsteps
(R64, R171). -/
def RowLength.Statement (i : Instr) : Prop :=
  Machine.executeSteps (sel i.opcode) = executeCount i

theorem EncodedLength.nop (x : Nibble) : EncodedLength.Statement (.nop x) := by
  show 1 = instrLength (opcodeByte 0x0#4 x)
  revert x; decide

theorem RowLength.nop (x : Nibble) : RowLength.Statement (.nop x) := by
  show Machine.executeSteps (sel (opcodeByte 0x0#4 x)) = 1
  revert x; decide

theorem EncodedLength.lda (x : Nibble) (d : Byte) : EncodedLength.Statement (.lda x d) := by
  show 2 = instrLength (opcodeByte 0x1#4 x)
  revert x; decide

theorem RowLength.lda (x : Nibble) (d : Byte) : RowLength.Statement (.lda x d) := by
  show Machine.executeSteps (sel (opcodeByte 0x1#4 x)) = 4
  revert x; decide

theorem EncodedLength.ldi (x : Nibble) (d : Byte) : EncodedLength.Statement (.ldi x d) := by
  show 2 = instrLength (opcodeByte 0x2#4 x)
  revert x; decide

theorem RowLength.ldi (x : Nibble) (d : Byte) : RowLength.Statement (.ldi x d) := by
  show Machine.executeSteps (sel (opcodeByte 0x2#4 x)) = 3
  revert x; decide

theorem EncodedLength.ldb (x : Nibble) (d : Byte) : EncodedLength.Statement (.ldb x d) := by
  show 2 = instrLength (opcodeByte 0x3#4 x)
  revert x; decide

theorem RowLength.ldb (x : Nibble) (d : Byte) : RowLength.Statement (.ldb x d) := by
  show Machine.executeSteps (sel (opcodeByte 0x3#4 x)) = 4
  revert x; decide

theorem EncodedLength.lbi (x : Nibble) (d : Byte) : EncodedLength.Statement (.lbi x d) := by
  show 2 = instrLength (opcodeByte 0x4#4 x)
  revert x; decide

theorem RowLength.lbi (x : Nibble) (d : Byte) : RowLength.Statement (.lbi x d) := by
  show Machine.executeSteps (sel (opcodeByte 0x4#4 x)) = 3
  revert x; decide

theorem EncodedLength.add (x : Nibble) (d : Byte) : EncodedLength.Statement (.add x d) := by
  show 2 = instrLength (opcodeByte 0x5#4 x)
  revert x; decide

theorem RowLength.add (x : Nibble) (d : Byte) : RowLength.Statement (.add x d) := by
  show Machine.executeSteps (sel (opcodeByte 0x5#4 x)) = 5
  revert x; decide

theorem EncodedLength.adi (x : Nibble) (d : Byte) : EncodedLength.Statement (.adi x d) := by
  show 2 = instrLength (opcodeByte 0x6#4 x)
  revert x; decide

theorem RowLength.adi (x : Nibble) (d : Byte) : RowLength.Statement (.adi x d) := by
  show Machine.executeSteps (sel (opcodeByte 0x6#4 x)) = 4
  revert x; decide

theorem EncodedLength.sub (x : Nibble) (d : Byte) : EncodedLength.Statement (.sub x d) := by
  show 2 = instrLength (opcodeByte 0x7#4 x)
  revert x; decide

theorem RowLength.sub (x : Nibble) (d : Byte) : RowLength.Statement (.sub x d) := by
  show Machine.executeSteps (sel (opcodeByte 0x7#4 x)) = 5
  revert x; decide

theorem EncodedLength.sbi (x : Nibble) (d : Byte) : EncodedLength.Statement (.sbi x d) := by
  show 2 = instrLength (opcodeByte 0x8#4 x)
  revert x; decide

theorem RowLength.sbi (x : Nibble) (d : Byte) : RowLength.Statement (.sbi x d) := by
  show Machine.executeSteps (sel (opcodeByte 0x8#4 x)) = 4
  revert x; decide

theorem EncodedLength.sta (x : Nibble) (d : Byte) : EncodedLength.Statement (.sta x d) := by
  show 2 = instrLength (opcodeByte 0x9#4 x)
  revert x; decide

theorem RowLength.sta (x : Nibble) (d : Byte) : RowLength.Statement (.sta x d) := by
  show Machine.executeSteps (sel (opcodeByte 0x9#4 x)) = 4
  revert x; decide

theorem EncodedLength.jmp (x : Nibble) (d : Byte) : EncodedLength.Statement (.jmp x d) := by
  show 2 = instrLength (opcodeByte 0xA#4 x)
  revert x; decide

theorem RowLength.jmp (x : Nibble) (d : Byte) : RowLength.Statement (.jmp x d) := by
  show Machine.executeSteps (sel (opcodeByte 0xA#4 x)) = 3
  revert x; decide

theorem EncodedLength.cmp (x : Nibble) (d : Byte) : EncodedLength.Statement (.cmp x d) := by
  show 2 = instrLength (opcodeByte 0xB#4 x)
  revert x; decide

theorem RowLength.cmp (x : Nibble) (d : Byte) : RowLength.Statement (.cmp x d) := by
  show Machine.executeSteps (sel (opcodeByte 0xB#4 x)) = 4
  revert x; decide

theorem EncodedLength.cpi (x : Nibble) (d : Byte) : EncodedLength.Statement (.cpi x d) := by
  show 2 = instrLength (opcodeByte 0xC#4 x)
  revert x; decide

theorem RowLength.cpi (x : Nibble) (d : Byte) : RowLength.Statement (.cpi x d) := by
  show Machine.executeSteps (sel (opcodeByte 0xC#4 x)) = 3
  revert x; decide

theorem EncodedLength.bnz (x : Nibble) (d : Byte) : EncodedLength.Statement (.bnz x d) := by
  show 2 = instrLength (opcodeByte 0xD#4 x)
  revert x; decide

theorem RowLength.bnz (x : Nibble) (d : Byte) : RowLength.Statement (.bnz x d) := by
  show Machine.executeSteps (sel (opcodeByte 0xD#4 x)) = 3
  revert x; decide

theorem EncodedLength.jz (x : Nibble) (d : Byte) : EncodedLength.Statement (.jz x d) := by
  show 2 = instrLength (opcodeByte 0xE#4 x)
  revert x; decide

theorem RowLength.jz (x : Nibble) (d : Byte) : RowLength.Statement (.jz x d) := by
  show Machine.executeSteps (sel (opcodeByte 0xE#4 x)) = 3
  revert x; decide

theorem EncodedLength.jc (d : Byte) : EncodedLength.Statement (.jc d) := by
  show 2 = instrLength 0xF0#8
  decide

theorem RowLength.jc (d : Byte) : RowLength.Statement (.jc d) := by
  show Machine.executeSteps (sel 0xF0#8) = 3
  decide

theorem EncodedLength.inc (d : Byte) : EncodedLength.Statement (.inc d) := by
  show 2 = instrLength 0xF1#8
  decide

theorem RowLength.inc (d : Byte) : RowLength.Statement (.inc d) := by
  show Machine.executeSteps (sel 0xF1#8) = 6
  decide

theorem EncodedLength.dec (d : Byte) : EncodedLength.Statement (.dec d) := by
  show 2 = instrLength 0xF2#8
  decide

theorem RowLength.dec (d : Byte) : RowLength.Statement (.dec d) := by
  show Machine.executeSteps (sel 0xF2#8) = 6
  decide

theorem EncodedLength.out : EncodedLength.Statement .out := by
  show 1 = instrLength 0xF3#8
  decide

theorem RowLength.out : RowLength.Statement .out := by
  show Machine.executeSteps (sel 0xF3#8) = 2
  decide

theorem EncodedLength.unassignedF4 : EncodedLength.Statement .unassignedF4 := by
  show 1 = instrLength 0xF4#8
  decide

theorem RowLength.unassignedF4 : RowLength.Statement .unassignedF4 := by
  show Machine.executeSteps (sel 0xF4#8) = 1
  decide

theorem EncodedLength.unassignedF5 : EncodedLength.Statement .unassignedF5 := by
  show 1 = instrLength 0xF5#8
  decide

theorem RowLength.unassignedF5 : RowLength.Statement .unassignedF5 := by
  show Machine.executeSteps (sel 0xF5#8) = 1
  decide

theorem EncodedLength.unassignedF6 : EncodedLength.Statement .unassignedF6 := by
  show 1 = instrLength 0xF6#8
  decide

theorem RowLength.unassignedF6 : RowLength.Statement .unassignedF6 := by
  show Machine.executeSteps (sel 0xF6#8) = 1
  decide

theorem EncodedLength.unassignedF7 : EncodedLength.Statement .unassignedF7 := by
  show 1 = instrLength 0xF7#8
  decide

theorem RowLength.unassignedF7 : RowLength.Statement .unassignedF7 := by
  show Machine.executeSteps (sel 0xF7#8) = 1
  decide

theorem EncodedLength.unassignedF8 : EncodedLength.Statement .unassignedF8 := by
  show 1 = instrLength 0xF8#8
  decide

theorem RowLength.unassignedF8 : RowLength.Statement .unassignedF8 := by
  show Machine.executeSteps (sel 0xF8#8) = 1
  decide

theorem EncodedLength.unassignedF9 : EncodedLength.Statement .unassignedF9 := by
  show 1 = instrLength 0xF9#8
  decide

theorem RowLength.unassignedF9 : RowLength.Statement .unassignedF9 := by
  show Machine.executeSteps (sel 0xF9#8) = 1
  decide

theorem EncodedLength.unassignedFA : EncodedLength.Statement .unassignedFA := by
  show 1 = instrLength 0xFA#8
  decide

theorem RowLength.unassignedFA : RowLength.Statement .unassignedFA := by
  show Machine.executeSteps (sel 0xFA#8) = 1
  decide

theorem EncodedLength.unassignedFB : EncodedLength.Statement .unassignedFB := by
  show 1 = instrLength 0xFB#8
  decide

theorem RowLength.unassignedFB : RowLength.Statement .unassignedFB := by
  show Machine.executeSteps (sel 0xFB#8) = 1
  decide

theorem EncodedLength.unassignedFC : EncodedLength.Statement .unassignedFC := by
  show 1 = instrLength 0xFC#8
  decide

theorem RowLength.unassignedFC : RowLength.Statement .unassignedFC := by
  show Machine.executeSteps (sel 0xFC#8) = 1
  decide

theorem EncodedLength.unassignedFD : EncodedLength.Statement .unassignedFD := by
  show 1 = instrLength 0xFD#8
  decide

theorem RowLength.unassignedFD : RowLength.Statement .unassignedFD := by
  show Machine.executeSteps (sel 0xFD#8) = 1
  decide

theorem EncodedLength.unassignedFE : EncodedLength.Statement .unassignedFE := by
  show 1 = instrLength 0xFE#8
  decide

theorem RowLength.unassignedFE : RowLength.Statement .unassignedFE := by
  show Machine.executeSteps (sel 0xFE#8) = 1
  decide

theorem EncodedLength.hlt : EncodedLength.Statement .hlt := by
  show 1 = instrLength 0xFF#8
  decide

theorem RowLength.hlt : RowLength.Statement .hlt := by
  show Machine.executeSteps (sel 0xFF#8) = 2
  decide

end Sys2Proof.Laws
end

