-- ==== Sys2Proof/Tests/Slice0.lean ====
section
/-! SUPPORT. The model's own tests. Expected results are those of 95_test_vectors.md, named by their ids there, or
are written out by hand from the rule named. The witnesses at the end show, for each statement of
Certificates/Slice0/Obligations.lean that has hypotheses, a state and operands that meet them. -/

namespace Sys2Proof.Tests

open Sys2Proof Sys2Proof.Machine

/-! ### WellFormed: what the checks accept and refuse -/

/-- R65: the form an assembler emits has the low nibble 0. -/
theorem test_canonical_nop : Instr.canonical (.nop 0x0#4) = true ∧ Instr.canonical (.nop 0xB#4) = false := by
  decide

theorem test_canonical_lda :
    Instr.canonical (.lda 0x0#4 0x40#8) = true ∧ Instr.canonical (.lda 0x7#4 0x40#8) = false := by
  decide

theorem test_canonical_ldi :
    Instr.canonical (.ldi 0x0#4 0x40#8) = true ∧ Instr.canonical (.ldi 0x7#4 0x40#8) = false := by
  decide

theorem test_canonical_ldb :
    Instr.canonical (.ldb 0x0#4 0x40#8) = true ∧ Instr.canonical (.ldb 0x7#4 0x40#8) = false := by
  decide

theorem test_canonical_lbi :
    Instr.canonical (.lbi 0x0#4 0x40#8) = true ∧ Instr.canonical (.lbi 0x7#4 0x40#8) = false := by
  decide

theorem test_canonical_add :
    Instr.canonical (.add 0x0#4 0x40#8) = true ∧ Instr.canonical (.add 0x7#4 0x40#8) = false := by
  decide

theorem test_canonical_adi :
    Instr.canonical (.adi 0x0#4 0x40#8) = true ∧ Instr.canonical (.adi 0x7#4 0x40#8) = false := by
  decide

theorem test_canonical_sub :
    Instr.canonical (.sub 0x0#4 0x40#8) = true ∧ Instr.canonical (.sub 0x7#4 0x40#8) = false := by
  decide

theorem test_canonical_sbi :
    Instr.canonical (.sbi 0x0#4 0x40#8) = true ∧ Instr.canonical (.sbi 0x7#4 0x40#8) = false := by
  decide

theorem test_canonical_sta :
    Instr.canonical (.sta 0x0#4 0x40#8) = true ∧ Instr.canonical (.sta 0x7#4 0x40#8) = false := by
  decide

theorem test_canonical_jmp :
    Instr.canonical (.jmp 0x0#4 0x40#8) = true ∧ Instr.canonical (.jmp 0x7#4 0x40#8) = false := by
  decide

theorem test_canonical_cmp :
    Instr.canonical (.cmp 0x0#4 0x40#8) = true ∧ Instr.canonical (.cmp 0x7#4 0x40#8) = false := by
  decide

theorem test_canonical_cpi :
    Instr.canonical (.cpi 0x0#4 0x40#8) = true ∧ Instr.canonical (.cpi 0x7#4 0x40#8) = false := by
  decide

theorem test_canonical_bnz :
    Instr.canonical (.bnz 0x0#4 0x40#8) = true ∧ Instr.canonical (.bnz 0x7#4 0x40#8) = false := by
  decide

theorem test_canonical_jz :
    Instr.canonical (.jz 0x0#4 0x40#8) = true ∧ Instr.canonical (.jz 0x7#4 0x40#8) = false := by
  decide

/-- R53: 256 bytes fit and 257 do not. -/
theorem test_image_fits :
    imageFits (List.replicate 256 0xAA#8) = true ∧ imageFits (List.replicate 257 0xAA#8) = false := by
  simp only [imageFits, List.length_replicate]
  decide

/-- A list of bytes that ends too soon is rejected by name; no opcode byte is. -/
theorem test_decode_short :
    decode [] = .error .missingOpcode ∧ decode [0x10#8] = .error (.missingOperand 0x10#8) ∧
      decode [0x0B#8] = .ok (.nop 0xB#4, []) := by
  refine ⟨rfl, rfl, rfl⟩

/-! ### Decode: one word for each constructor, its opcode byte bit by bit from the map of R64 -/

theorem test_decode_nop : decodeTableWord 8 0b00001111 = some (.nop 0b1111#4) := by decide

theorem test_decode_lda : decodeTableWord 16 0b1100100000011111 = some (.lda 0b1111#4 0b11001000#8) := by decide

theorem test_decode_ldi : decodeTableWord 16 0b1100100000101111 = some (.ldi 0b1111#4 0b11001000#8) := by decide

theorem test_decode_ldb : decodeTableWord 16 0b1100100000111111 = some (.ldb 0b1111#4 0b11001000#8) := by decide

theorem test_decode_lbi : decodeTableWord 16 0b1100100001001111 = some (.lbi 0b1111#4 0b11001000#8) := by decide

theorem test_decode_add : decodeTableWord 16 0b1100100001011111 = some (.add 0b1111#4 0b11001000#8) := by decide

theorem test_decode_adi : decodeTableWord 16 0b1100100001101111 = some (.adi 0b1111#4 0b11001000#8) := by decide

theorem test_decode_sub : decodeTableWord 16 0b1100100001111111 = some (.sub 0b1111#4 0b11001000#8) := by decide

theorem test_decode_sbi : decodeTableWord 16 0b1100100010001111 = some (.sbi 0b1111#4 0b11001000#8) := by decide

theorem test_decode_sta : decodeTableWord 16 0b1100100010011111 = some (.sta 0b1111#4 0b11001000#8) := by decide

theorem test_decode_jmp : decodeTableWord 16 0b1100100010101111 = some (.jmp 0b1111#4 0b11001000#8) := by decide

theorem test_decode_cmp : decodeTableWord 16 0b1100100010111111 = some (.cmp 0b1111#4 0b11001000#8) := by decide

theorem test_decode_cpi : decodeTableWord 16 0b1100100011001111 = some (.cpi 0b1111#4 0b11001000#8) := by decide

theorem test_decode_bnz : decodeTableWord 16 0b1100100011011111 = some (.bnz 0b1111#4 0b11001000#8) := by decide

theorem test_decode_jz : decodeTableWord 16 0b1010001111101010 = some (.jz 0b1010#4 0b10100011#8) := by decide

theorem test_decode_jc : decodeTableWord 16 0b1010001111110000 = some (.jc 0b10100011#8) := by decide

theorem test_decode_inc : decodeTableWord 16 0b1100100011110001 = some (.inc 0b11001000#8) := by decide

theorem test_decode_dec : decodeTableWord 16 0b1100100011110010 = some (.dec 0b11001000#8) := by decide

theorem test_decode_out : decodeTableWord 8 0b11110011 = some .out := by decide

theorem test_decode_hlt : decodeTableWord 8 0b11111111 = some .hlt := by decide

theorem test_decode_unassignedF4 : decodeTableWord 8 0b11110100 = some .unassignedF4 := by decide

theorem test_decode_unassignedF5 : decodeTableWord 8 0b11110101 = some .unassignedF5 := by decide

theorem test_decode_unassignedF6 : decodeTableWord 8 0b11110110 = some .unassignedF6 := by decide

theorem test_decode_unassignedF7 : decodeTableWord 8 0b11110111 = some .unassignedF7 := by decide

theorem test_decode_unassignedF8 : decodeTableWord 8 0b11111000 = some .unassignedF8 := by decide

theorem test_decode_unassignedF9 : decodeTableWord 8 0b11111001 = some .unassignedF9 := by decide

theorem test_decode_unassignedFA : decodeTableWord 8 0b11111010 = some .unassignedFA := by decide

theorem test_decode_unassignedFB : decodeTableWord 8 0b11111011 = some .unassignedFB := by decide

theorem test_decode_unassignedFC : decodeTableWord 8 0b11111100 = some .unassignedFC := by decide

theorem test_decode_unassignedFD : decodeTableWord 8 0b11111101 = some .unassignedFD := by decide

theorem test_decode_unassignedFE : decodeTableWord 8 0b11111110 = some .unassignedFE := by decide

/-- The program P1 of 95_test_vectors.md and its image. -/
theorem test_assemble_P1 :
    assemble [.instr (.lda 0x0#4 0x10#8), .instr (.add 0x0#4 0x11#8), .instr (.sta 0x0#4 0x12#8),
      .instr (.ldb 0x0#4 0x12#8), .instr .out, .instr .hlt, .org 0x10#8, .byte 0xC8#8, .byte 0x64#8,
      .byte 0x00#8] =
      [0x10#8, 0x10#8, 0x50#8, 0x11#8, 0x90#8, 0x12#8, 0x30#8, 0x12#8, 0xF3#8, 0xFF#8, 0x00#8, 0x00#8,
        0x00#8, 0x00#8, 0x00#8, 0x00#8, 0xC8#8, 0x64#8, 0x00#8] := by
  decide

/-- R69: an address operand in brackets, a datum after a hash. -/
theorem test_assembly :
    Instr.assembly (.lda 0x7#4 0x0A#8) = "LDA [10]" ∧ Instr.assembly (.cpi 0x0#4 0x07#8) = "CPI #7" := by
  decide

/-! ### One step for each instruction -/

/-- A machine at a boundary with the given A, B, `pc` and memory, all else as at reset. -/
def probe (a b pc : Byte) (cells : List (Byte × Byte)) : State :=
  { State.reset with
    regA := a, regB := b, pc := pc, memory := cells.foldl (fun m c => m.write c.1 c.2) [] }

/-- The outcome is a next state with these values. -/
def shows (o : Host.Outcome State Fault Refusal) (a b alu : Byte) (cf zf : Bool)
    (pc mar ir bus : Byte) : Bool :=
  match o with
  | .next s => s.regA == a && s.regB == b && s.aluOut == alu && s.cf == cf && s.zf == zf
      && s.pc == pc && s.mar == mar && s.ir == ir && s.bus == bus && s.tStep == 0#4
  | .fault _ => false
  | .refused _ => false

/-- The outcome is a next state with this byte at this address. -/
def holds (o : Host.Outcome State Fault Refusal) (a v : Byte) : Bool :=
  match o with
  | .next s => s.memory.read a == v
  | .fault _ => false
  | .refused _ => false

/-- The next state of an outcome, for the witnesses; the reset state where there is none. -/
def after (o : Host.Outcome State Fault Refusal) : State :=
  match o with
  | .next s => s
  | .fault _ => State.reset
  | .refused _ => State.reset

/-- LS4: LDA [80] at pc=FE. -/
theorem test_lda_wrapping_pc :
    shows (step (probe 0x11#8 0x22#8 0xFE#8
      [(0x80#8, 0x5A#8), (0xFE#8, 0x1C#8), (0xFF#8, 0x80#8)]))
      0x5A#8 0x22#8 0x7C#8 false false 0x00#8 0x80#8 0x1C#8 0x5A#8 = true := by
  decide

/-- LS6: LDI #00 (B=00). -/
theorem test_ldi_zero_flag :
    shows (step (probe 0x11#8 0x00#8 0x10#8
      [(0x10#8, 0x20#8), (0x11#8, 0x00#8)]))
      0x00#8 0x00#8 0x00#8 false true 0x12#8 0x11#8 0x20#8 0x00#8 = true := by
  decide

/-- LS8: LDB [80]. -/
theorem test_ldb :
    shows (step (probe 0x11#8 0x22#8 0x10#8
      [(0x10#8, 0x30#8), (0x11#8, 0x80#8), (0x80#8, 0x5A#8)]))
      0x11#8 0x5A#8 0x6B#8 false false 0x12#8 0x80#8 0x30#8 0x5A#8 = true := by
  decide

/-- LS9: LBI #EF. -/
theorem test_lbi_carry :
    shows (step (probe 0x11#8 0x22#8 0x10#8
      [(0x10#8, 0x40#8), (0x11#8, 0xEF#8)]))
      0x11#8 0xEF#8 0x00#8 true true 0x12#8 0x11#8 0x40#8 0xEF#8 = true := by
  decide

/-- LS12: STA [11] (own operand). -/
theorem test_sta_own_operand :
    shows (step (probe 0x77#8 0x22#8 0x10#8
      [(0x10#8, 0x90#8), (0x11#8, 0x11#8)]))
      0x77#8 0x22#8 0x99#8 false false 0x12#8 0x11#8 0x90#8 0x77#8 = true := by
  decide

theorem test_sta_own_operand_memory :
    holds (step (probe 0x77#8 0x22#8 0x10#8
      [(0x10#8, 0x90#8), (0x11#8, 0x11#8)])) 0x11#8 0x77#8 = true := by
  decide

/-- AR1: ADD [80]. -/
theorem test_add :
    shows (step (probe 0xC8#8 0x00#8 0x10#8
      [(0x10#8, 0x50#8), (0x11#8, 0x80#8), (0x80#8, 0x64#8)]))
      0x2C#8 0x64#8 0x90#8 false false 0x12#8 0x80#8 0x50#8 0x2C#8 = true := by
  decide

/-- AR5: ADI #01. -/
theorem test_adi_wraps :
    shows (step (probe 0xFF#8 0x00#8 0x10#8
      [(0x10#8, 0x60#8), (0x11#8, 0x01#8)]))
      0x00#8 0x01#8 0x01#8 false false 0x12#8 0x11#8 0x60#8 0x00#8 = true := by
  decide

/-- AR8: SUB [80]. -/
theorem test_sub_borrow :
    shows (step (probe 0x14#8 0x00#8 0x10#8
      [(0x10#8, 0x70#8), (0x11#8, 0x80#8), (0x80#8, 0x28#8)]))
      0xEC#8 0x28#8 0x14#8 true false 0x12#8 0x80#8 0x70#8 0xEC#8 = true := by
  decide

/-- AR12: SBI #01. -/
theorem test_sbi_borrow :
    shows (step (probe 0x00#8 0x00#8 0x10#8
      [(0x10#8, 0x80#8), (0x11#8, 0x01#8)]))
      0xFF#8 0x01#8 0x00#8 true true 0x12#8 0x11#8 0x80#8 0xFF#8 = true := by
  decide

/-- AR17: CMP [80]. -/
theorem test_cmp_below :
    shows (step (probe 0x10#8 0x00#8 0x10#8
      [(0x10#8, 0xB0#8), (0x11#8, 0x80#8), (0x80#8, 0x42#8)]))
      0x10#8 0x42#8 0xCE#8 true false 0x12#8 0x80#8 0xB0#8 0x42#8 = true := by
  decide

/-- AR19: CPI #07. -/
theorem test_cpi_equal :
    shows (step (probe 0x07#8 0x00#8 0x10#8
      [(0x10#8, 0xC0#8), (0x11#8, 0x07#8)]))
      0x07#8 0x07#8 0x00#8 false true 0x12#8 0x11#8 0xC0#8 0x07#8 = true := by
  decide

/-- AR24: INC [80]. -/
theorem test_inc_wraps :
    shows (step (probe 0x11#8 0x22#8 0x10#8
      [(0x10#8, 0xF1#8), (0x11#8, 0x80#8), (0x80#8, 0xFF#8)]))
      0xFF#8 0x01#8 0x00#8 true true 0x12#8 0x80#8 0xF1#8 0x00#8 = true := by
  decide

theorem test_inc_wraps_memory :
    holds (step (probe 0x11#8 0x22#8 0x10#8
      [(0x10#8, 0xF1#8), (0x11#8, 0x80#8), (0x80#8, 0xFF#8)])) 0x80#8 0x00#8 = true := by
  decide

/-- AR27: DEC [80]. -/
theorem test_dec_wraps :
    shows (step (probe 0x11#8 0x22#8 0x10#8
      [(0x10#8, 0xF2#8), (0x11#8, 0x80#8), (0x80#8, 0x00#8)]))
      0x00#8 0x01#8 0x01#8 false false 0x12#8 0x80#8 0xF2#8 0xFF#8 = true := by
  decide

theorem test_dec_wraps_memory :
    holds (step (probe 0x11#8 0x22#8 0x10#8
      [(0x10#8, 0xF2#8), (0x11#8, 0x80#8), (0x80#8, 0x00#8)])) 0x80#8 0xFF#8 = true := by
  decide

/-- CT2: JMP 40 (opcode byte A7). -/
theorem test_jmp :
    shows (step (probe 0x11#8 0x22#8 0x10#8
      [(0x10#8, 0xA7#8), (0x11#8, 0x40#8)]))
      0x11#8 0x22#8 0x33#8 false false 0x40#8 0x11#8 0xA7#8 0x40#8 = true := by
  decide

/-- CT5: BNZ 40, A+B=02. -/
theorem test_bnz_taken :
    shows (step (probe 0x01#8 0x01#8 0x10#8
      [(0x10#8, 0xD0#8), (0x11#8, 0x40#8)]))
      0x01#8 0x01#8 0x02#8 false false 0x40#8 0x11#8 0xD0#8 0x40#8 = true := by
  decide

/-- CT6: BNZ 40, A+B=100. -/
theorem test_bnz_not_taken :
    shows (step (probe 0xFF#8 0x01#8 0x10#8
      [(0x10#8, 0xD0#8), (0x11#8, 0x40#8)]))
      0xFF#8 0x01#8 0x00#8 true true 0x12#8 0x11#8 0xD0#8 0x40#8 = true := by
  decide

/-- CT10: JZ 40, A=FB B=05. -/
theorem test_jz_taken :
    shows (step (probe 0xFB#8 0x05#8 0x10#8
      [(0x10#8, 0xE0#8), (0x11#8, 0x40#8)]))
      0xFB#8 0x05#8 0x00#8 true true 0x40#8 0x11#8 0xE0#8 0x40#8 = true := by
  decide

/-- CT13: JZ 40 at pc=FF, not taken. -/
theorem test_jz_not_taken :
    shows (step (probe 0x01#8 0x05#8 0xFF#8
      [(0x00#8, 0x40#8), (0xFF#8, 0xE0#8)]))
      0x01#8 0x05#8 0x06#8 false false 0x01#8 0x00#8 0xE0#8 0x40#8 = true := by
  decide

/-- CT14: JC 40, A=80 B=80. -/
theorem test_jc_taken :
    shows (step (probe 0x80#8 0x80#8 0x10#8
      [(0x10#8, 0xF0#8), (0x11#8, 0x40#8)]))
      0x80#8 0x80#8 0x00#8 true true 0x40#8 0x11#8 0xF0#8 0x40#8 = true := by
  decide

/-- CT15: JC 40, A=80 B=7F. -/
theorem test_jc_not_taken :
    shows (step (probe 0x80#8 0x7F#8 0x10#8
      [(0x10#8, 0xF0#8), (0x11#8, 0x40#8)]))
      0x80#8 0x7F#8 0xFF#8 false false 0x12#8 0x11#8 0xF0#8 0x40#8 = true := by
  decide

/-- SY2: NOP (opcode byte 0B). -/
theorem test_nop :
    shows (step (probe 0x11#8 0x22#8 0x10#8
      [(0x10#8, 0x0B#8)]))
      0x11#8 0x22#8 0x33#8 false false 0x11#8 0x10#8 0x0B#8 0x0B#8 = true := by
  decide

/-- SY10: .byte F7. -/
theorem test_unassigned_F7 :
    shows (step (probe 0x11#8 0x22#8 0x10#8
      [(0x10#8, 0xF7#8)]))
      0x11#8 0x22#8 0x33#8 false false 0x11#8 0x10#8 0xF7#8 0xF7#8 = true := by
  decide

/-- SY5: OUT. -/
theorem test_out : (after (step (probe 0x5A#8 0x22#8 0x10#8 [(0x10#8, 0xF3#8)]))).output = 0x5A#8 := by
  decide

/-- SY6: HLT. -/
theorem test_hlt :
    (after (step (probe 0x11#8 0x22#8 0x10#8 [(0x10#8, 0xFF#8)]))).hlt = true ∧
      (after (step (probe 0x11#8 0x22#8 0x10#8 [(0x10#8, 0xFF#8)]))).tStep = 3#4 := by
  decide

/-- R113: the snapshot after a halt is 0x8000. -/
theorem test_halt_snapshot :
    (after (step (probe 0x11#8 0x22#8 0x10#8 [(0x10#8, 0xFF#8)]))).controlWord.toBits = 0x08000#17 := by
  decide

/-- Words of microcode_rom.json and of the listing of R171, the last of them K1 with BI (R28). -/
theorem test_rom_words :
    romWord 0x000#11 = 0x04004#17 ∧ romWord 0x011#11 = 0x01808#17 ∧
      (rom false false 0x0B#5 5#4).toBits = 0x00440#17 ∧
      (rom false false 0x11#5 5#4).toBits = 0x10020#17 := by
  decide

/-- The table word is fetched and run by the very next step: LDI with the datum 0x5A. -/
theorem test_withFetchWord :
    (after (step (State.reset.withFetchWord 16 0x5A20))).regA = 0x5A#8 := by
  decide

/-! ### Witnesses: for each statement with hypotheses, a state and operands that meet them

Where a statement has several clauses, each has its own, at a boundary value where its range has one. -/

/-- A machine at a boundary with A = 0x11, B = 0x22 and the bytes at 0x10, where `pc` stands. -/
def ready (bytes : List Byte) : State :=
  { State.reset with
    regA := 0x11#8, regB := 0x22#8, pc := 0x10#8
    memory := Memory.writeAll [(0x80, 0x5A#8)] 0x10 bytes }

/-- The state that `n` ticks lead to. -/
def afterTicks (n : Nat) (s : State) : State := after (runTicks n s)

/-- An image of 256 bytes and its last byte, an empty image, an image of 257 bytes. -/
theorem test_witness_LoadProgramPlacesTheImage :
    (List.replicate 256 0x5A#8).length ≤ 256 ∧ 255 < (List.replicate 256 0x5A#8).length ∧
      ([] : List Byte).length ≤ (0x00#8 : Byte).toNat ∧ 256 < (List.replicate 257 0x5A#8).length := by
  simp only [List.length_replicate]
  decide

/-- A load after a tick. -/
theorem test_witness_LoadProgramPlacesTheImage_after_a_tick :
    State.reset.hlt = false ∧ tick State.reset = .next (afterTicks 1 State.reset) := by
  exact ⟨rfl, rfl⟩

/-- A tick with the subtract line low. -/
theorem test_witness_EveryTickRecomputesAluAndFlags_add :
    (ready [0x60#8, 0xEF#8]).hlt = false ∧
      tick (ready [0x60#8]) = .next (afterTicks 1 (ready [0x60#8])) ∧
      (afterTicks 1 (ready [0x60#8])).controlWord.su = false := by
  exact ⟨rfl, rfl, rfl⟩

/-- The last tick of CPI with A equal to the datum: the subtract line high, the result 0. -/
theorem test_witness_EveryTickRecomputesAluAndFlags_sub :
    (afterTicks 4 (ready [0xC0#8, 0x11#8])).hlt = false ∧
      tick (afterTicks 4 (ready [0xC0#8, 0x11#8])) = .next (afterTicks 5 (ready [0xC0#8, 0x11#8])) ∧
      (afterTicks 5 (ready [0xC0#8, 0x11#8])).controlWord.su = true ∧
      (afterTicks 5 (ready [0xC0#8, 0x11#8])).aluOut = 0x00#8 := by
  exact ⟨rfl, rfl, by decide, by decide⟩

/-- One word for each driver. -/
theorem test_witness_TheAssertedDriverDrivesTheBus :
    (ControlWord.miCo.drivers ≤ 1 ∧ ControlWord.miCo.co = true) ∧
      (ControlWord.roAi.drivers ≤ 1 ∧ ControlWord.roAi.ro = true) ∧
      (ControlWord.aoOi.drivers ≤ 1 ∧ ControlWord.aoOi.ao = true) ∧
      (ControlWord.aiEo.drivers ≤ 1 ∧ ControlWord.aiEo.eo = true) := by
  decide

/-- Both arms of the memory clause: the byte at `mar` and another. -/
theorem test_witness_AssertedLatchesTakeTheBus :
    ControlWord.riAo.ri = true ∧ (0x00#8 : Byte) = (tickWith .riAo State.reset).mar ∧
      (0xFF#8 : Byte) ≠ (tickWith .riAo State.reset).mar := by
  decide

/-- A running tick; a machine about to halt. -/
theorem test_witness_SnapshotHoldsTheLastWord :
    (State.reset.hlt = false ∧ tick State.reset = .next (afterTicks 1 State.reset)) ∧
      AtBoundary (ready [0xFF#8]) ∧ (ready [0xFF#8]).memory.read (ready [0xFF#8]).pc = 0xFF#8 := by
  exact ⟨⟨rfl, rfl⟩, by decide, by decide⟩

/-- The two fetch microsteps. -/
theorem test_witness_FetchMicrostepsReadTheOpcode :
    ((ready [0x20#8]).hlt = false ∧ (ready [0x20#8]).tStep = 0#4) ∧
      (afterTicks 1 (ready [0x20#8])).hlt = false ∧ (afterTicks 1 (ready [0x20#8])).tStep = 1#4 := by
  decide

/-- The tick that halts, and nine ticks after it. -/
theorem test_witness_HaltFlagIsMonotonic :
    ((afterTicks 2 (ready [0xFF#8])).hlt = false ∧ tick (afterTicks 2 (ready [0xFF#8])) =
      .next (afterTicks 3 (ready [0xFF#8]))) ∧ (afterTicks 3 (ready [0xFF#8])).hlt = true ∧
      runTicks 9 (afterTicks 3 (ready [0xFF#8])) = .next (afterTicks 3 (ready [0xFF#8])) := by
  exact ⟨⟨by decide, rfl⟩, by decide, runTicks_halted 9 (by decide)⟩

/-- BoundaryFlagsAreOfTheSum and WritersOfEachElement: a compare and another instruction. -/
theorem test_witness_BoundaryFlags_and_Writers :
    exec (.nop 0x0#4) (ready [0x00#8]) = .next (after (exec (.nop 0x0#4) (ready [0x00#8]))) ∧
      exec (.cpi 0x0#4 0x11#8) (ready []) = .next (after (exec (.cpi 0x0#4 0x11#8) (ready []))) ∧
      (sel (Instr.opcode (.cpi 0x0#4 0x11#8)) = 0x0C#5) ∧ sel (Instr.opcode (.nop 0x0#4)) ≠ 0x0C#5 := by
  exact ⟨rfl, rfl, by decide, by decide⟩

/-- Each element moves under one of its writers. -/
theorem test_witness_WritersOfEachElement :
    (after (exec (.ldi 0x0#4 0x5A#8) (ready []))).regA ≠ (ready []).regA ∧
      (after (exec (.cpi 0x0#4 0x5A#8) (ready []))).regB ≠ (ready []).regB ∧
      (after (exec (.sta 0x0#4 0x80#8) (ready []))).memory ≠ (ready []).memory ∧
      (after (exec .out (ready []))).output ≠ (ready []).output ∧
      (after (exec .hlt (ready []))).hlt ≠ (ready []).hlt ∧
      (after (exec (.jc 0x40#8) { ready [] with regA := 0xFF#8 })).pc ≠ (ready []).pc + 2#8 := by
  decide

/-- A run that stores, to a byte other than the one watched; the storing microsteps of STA and INC. -/
theorem test_witness_NoSpuriousWrites :
    runTicks 5 (ready [0x90#8, 0x80#8]) = .next (afterTicks 5 (ready [0x90#8, 0x80#8])) ∧
      (∀ k, k < 5 → storesAt (afterTicks k (ready [0x90#8, 0x80#8])) ≠ some 0x81#8) ∧
      storesAt (afterTicks 4 (ready [0x90#8, 0x80#8])) = some 0x80#8 ∧
      storesAt (afterTicks 6 (ready [0xF1#8, 0x80#8])) = some 0x80#8 := by
  exact ⟨rfl, by decide, by decide, by decide⟩

/-- The storing tick of STA and the reading tick of LDA. -/
theorem test_witness_MemoryIsReadAndWrittenAtMar :
    tick (afterTicks 4 (ready [0x90#8, 0x80#8])) = .next (afterTicks 5 (ready [0x90#8, 0x80#8])) ∧
      (afterTicks 5 (ready [0x90#8, 0x80#8])).controlWord.ri = true ∧
      tick (afterTicks 4 (ready [0x10#8, 0x80#8])) = .next (afterTicks 5 (ready [0x10#8, 0x80#8])) ∧
      (afterTicks 5 (ready [0x10#8, 0x80#8])).controlWord.ro = true ∧
      (afterTicks 5 (ready [0x10#8, 0x80#8])).controlWord.ri = false ∧
      (afterTicks 4 (ready [0x90#8, 0x80#8])).hlt = false ∧ (afterTicks 4 (ready [0x10#8, 0x80#8])).hlt = false := by
  exact ⟨rfl, by decide, rfl, by decide, by decide, by decide, by decide⟩

/-- INC, the longest cycle, with its last tick; and HLT. -/
theorem test_witness_CycleTakesTwoPlusNTicks :
    (AtBoundary (ready [0xF1#8, 0x80#8]) ∧ (ready [0xF1#8, 0x80#8]).memory.read 0x10#8 ≠ 0xFF#8 ∧
      7 < 2 + executeCount (fetchInstr (ready [0xF1#8, 0x80#8]))) ∧
      AtBoundary (ready [0xFF#8]) ∧ (ready [0xFF#8]).memory.read 0x10#8 = 0xFF#8 := by
  decide

/-- The edges of both ranges of `t_step`, and a halted machine. -/
theorem test_witness_TickKeepsTheStateBounds :
    tick { State.reset with tStep := 8#4 } = .next (after (tick { State.reset with tStep := 8#4 })) ∧
      (8#4 : Microstep).toNat ≤ 8 ∧ State.reset.memory.wf = true ∧
      tick { State.reset with tStep := 7#4 } = .next (after (tick { State.reset with tStep := 7#4 })) ∧
      tick { State.reset with hlt := true } = .next { State.reset with hlt := true } := by
  exact ⟨rfl, by decide, rfl, rfl, rfl⟩

/-- The last microstep of the longest row, and the tick that halts. -/
theorem test_witness_TickKeepsSequencerInvariant :
    SequencerInv (afterTicks 2 (ready [0xFF#8])) ∧
      tick (afterTicks 2 (ready [0xFF#8])) = .next (afterTicks 3 (ready [0xFF#8])) ∧
      SequencerInv (afterTicks 7 (ready [0xF1#8, 0x80#8])) ∧
      tick (afterTicks 7 (ready [0xF1#8, 0x80#8])) = .next (afterTicks 8 (ready [0xF1#8, 0x80#8])) := by
  exact ⟨⟨by decide, by decide, by decide, by decide⟩, rfl, ⟨by decide, by decide, by decide, by decide⟩, rfl⟩

/-- A running machine after a store, and a halted one. -/
theorem test_witness_StepKeepsMachineInvariant :
    MachineInv (after (step (ready [0xF1#8, 0x80#8]))) ∧
      step (after (step (ready [0xF1#8, 0x80#8]))) =
        .next (after (step (after (step (ready [0xF1#8, 0x80#8]))))) ∧
      MachineInv (after (step (ready [0xFF#8]))) ∧
      step (after (step (ready [0xFF#8]))) = .next (after (step (ready [0xFF#8]))) := by
  exact ⟨⟨by decide, by decide, by decide, by unfold FlagsOf; decide, by decide⟩, rfl, ⟨by decide, by decide, by decide, by unfold FlagsOf; decide, by decide⟩, rfl⟩

/-- One memory written out and one built by writes at the two ends of the address space. -/
theorem test_witness_CanonicalMemoriesThatReadAlikeAreEqual :
    Memory.wf [(0x00, 0x01#8), (0xFF, 0x5A#8)] = true ∧
      Memory.wf (Memory.writeAll [] 0xFF [0x5A#8, 0x01#8]) = true ∧
      ∀ b : Byte, Memory.read [(0x00, 0x01#8), (0xFF, 0x5A#8)] b =
        Memory.read (Memory.writeAll [] 0xFF [0x5A#8, 0x01#8]) b := by
  decide

/-- A two-byte instruction and a byte left over. -/
theorem test_witness_DecodedBytesAreTheEncoding :
    decode [0x1C#8, 0x80#8, 0xFF#8] = .ok (.lda 0xC#4 0x80#8, [0xFF#8]) := by
  rfl

/-- A running machine at a boundary; a halted one. -/
theorem test_witness_StepRunsTheDecodedInstruction :
    (AtBoundary (ready [0x1C#8, 0x80#8]) ∧
      decode [(ready [0x1C#8, 0x80#8]).memory.read 0x10#8,
        (ready [0x1C#8, 0x80#8]).memory.read (0x10#8 + 1#8)] = .ok (.lda 0xC#4 0x80#8, [])) ∧
      { State.reset with hlt := true }.hlt = true := by
  exact ⟨⟨by decide, rfl⟩, rfl⟩

/-- The longest cycle. -/
theorem test_witness_StepIsTheMicroprogram :
    AtBoundary (ready [0xF2#8, 0x80#8]) := by
  decide

/-- Running machines at a boundary, past every row, and inside the fetch. -/
theorem test_witness_StepEndsAtTheFirstBoundaryOrHalt :
    (ready []).hlt = false ∧ { ready [] with tStep := 15#4 }.hlt = false ∧
      { ready [] with tStep := 1#4, mar := 0x10#8 }.hlt = false ∧ 0 < 1 ∧ 1 < 3 := by
  decide

/-- A machine that ran HLT. -/
theorem test_witness_HaltedMachineIsStuck :
    (after (step (ready [0xFF#8]))).hlt = true := by
  decide

/-- Two machines that differ in hidden latches only. -/
theorem test_witness_HiddenLatchesDoNotMatter :
    AtBoundary (ready [0x00#8]) ∧
      AtBoundary { ready [0x00#8] with cf := true, mar := 0x77#8, ir := 0xC0#8, bus := 0x01#8 } ∧
      { ready [0x00#8] with cf := true, mar := 0x77#8, ir := 0xC0#8, bus := 0x01#8 } ≠ ready [0x00#8] := by
  decide

/-- JC at its microstep 2, with a stale carry. -/
theorem test_witness_GateReadsEitherFlags :
    { ready [] with tStep := 2#4, ir := 0xF0#8, cf := true }.hlt = false ∧
      sel 0xF0#8 ∈ [0x0A#5, 0x0D#5, 0x0E#5, 0x10#5] ∧
      tick { ready [] with tStep := 2#4, ir := 0xF0#8, cf := true } =
        .next (after (tick { ready [] with tStep := 2#4, ir := 0xF0#8, cf := true })) := by
  exact ⟨rfl, by decide, rfl⟩

/-- A datum whose sum with A is 0, and one equal to A. -/
theorem test_witness_CompareDoesNotReachTheBranch :
    (AtBoundary (ready [0xC0#8, 0xEF#8, 0xE0#8, 0x40#8]) ∧
      codeAt [0xC0#8, 0xEF#8, 0xE0#8, 0x40#8] 0x10#8 (ready [0xC0#8, 0xEF#8, 0xE0#8, 0x40#8]) = true ∧
      (0x11#8 : Byte) + 0xEF#8 = 0x00#8) ∧
      codeAt [0xC0#8, 0x11#8, 0xE0#8, 0x40#8] 0x10#8 (ready [0xC0#8, 0x11#8, 0xE0#8, 0x40#8]) = true ∧
      (0x11#8 : Byte) + 0x11#8 ≠ 0x00#8 := by
  decide

/-- A datum one above A, and one equal to A. -/
theorem test_witness_SubtractionBorrowReachesJc :
    (AtBoundary (ready [0x80#8, 0x12#8, 0xF0#8, 0x40#8]) ∧
      codeAt [0x80#8, 0x12#8, 0xF0#8, 0x40#8] 0x10#8 (ready [0x80#8, 0x12#8, 0xF0#8, 0x40#8]) = true ∧
      (0x11#8 : Byte).toNat < (0x12#8 : Byte).toNat) ∧
      codeAt [0x80#8, 0x11#8, 0xF0#8, 0x40#8] 0x10#8 (ready [0x80#8, 0x11#8, 0xF0#8, 0x40#8]) = true ∧
      ¬ (0x11#8 : Byte).toNat < (0x11#8 : Byte).toNat := by
  decide

/-- A store over the next opcode, and over the byte after it. -/
theorem test_witness_StoresReachTheNextFetch :
    (AtBoundary (ready [0x90#8, 0x12#8]) ∧ codeAt [0x90#8, 0x12#8] 0x10#8 (ready [0x90#8, 0x12#8]) = true ∧
      (0x12#8 : Byte) = (ready []).pc + 2#8) ∧
      codeAt [0x90#8, 0x13#8] 0x10#8 (ready [0x90#8, 0x13#8]) = true ∧
      (0x13#8 : Byte) = (ready []).pc + 3#8 := by
  decide

/-- At the last address. -/
theorem test_witness_ZeroMemoryRunsForEver :
    AtBoundary { State.reset with pc := 0xFF#8 } ∧ { State.reset with pc := 0xFF#8 }.memory = [] := by
  decide

/-- INC and DEC at microstep 2; and each way not to be. -/
theorem test_witness_RefuseParameterStopsIncAndDec :
    (2 ≤ (afterTicks 2 (ready [0xF1#8, 0x80#8])).tStep.toNat ∧
      sel (afterTicks 2 (ready [0xF1#8, 0x80#8])).ir = 0x11#5 ∧
      (afterTicks 2 (ready [0xF1#8, 0x80#8])).hlt = false) ∧
      2 ≤ (afterTicks 2 (ready [0xF2#8, 0x80#8])).tStep.toNat ∧
      sel (afterTicks 2 (ready [0xF2#8, 0x80#8])).ir = 0x12#5 ∧
      { State.reset with hlt := true }.hlt = true ∧
      (afterTicks 1 (ready [0xF1#8])).tStep.toNat < 2 ∧
      sel (afterTicks 3 (ready [0x10#8])).ir ≠ 0x11#5 ∧ sel (afterTicks 3 (ready [0x10#8])).ir ≠ 0x12#5 := by
  decide

/-- INC, DEC, and JC, whose opcode byte is next to theirs, to its last tick. -/
theorem test_witness_TheParameterDecidesRuns :
    (romAs .refuse false false 0x11#5 1#4 = some .roIiCe) ∧
      (∀ a, Instr.out ≠ .inc a ∧ Instr.out ≠ .dec a) ∧
      (AtBoundary (ready [0xF1#8, 0x80#8]) ∧ (ready [0xF1#8, 0x80#8]).memory.read 0x10#8 = 0xF1#8) ∧
      (AtBoundary (ready [0xF2#8, 0x80#8]) ∧ (ready [0xF2#8, 0x80#8]).memory.read 0x10#8 = 0xF2#8) ∧
      AtBoundary (ready [0xF0#8, 0x40#8]) ∧ (ready [0xF0#8, 0x40#8]).memory.read 0x10#8 ≠ 0xF1#8 ∧
      (ready [0xF0#8, 0x40#8]).memory.read 0x10#8 ≠ 0xF2#8 ∧
      5 ≤ 2 + executeCount (fetchInstr (ready [0xF0#8, 0x40#8])) := by
  decide

/-- Under `refuse` the program F1 80 runs two ticks and is refused at the third (R8). -/
theorem test_refuse_at_tick_3 :
    runTicksAs .refuse 2 (ready [0xF1#8, 0x80#8]) = runTicks 2 (ready [0xF1#8, 0x80#8]) ∧
      runTicksAs .refuse 3 (ready [0xF1#8, 0x80#8]) = .refused .incDecNotRealised ∧
      Host.Core.run (coreAs .refuse) 2 (ready [0x00#8, 0xF2#8, 0x80#8]) =
        .refused .incDecNotRealised := by
  exact ⟨rfl, rfl, rfl⟩

theorem test_witness_NopOnlyFetches :
    AtBoundary (ready [0x0B#8]) ∧ codeAt [0x0B#8] 0x10#8 (ready [0x0B#8]) = true := by
  decide

theorem test_witness_LdaLoadsAFromMemory :
    AtBoundary (ready [0x10#8, 0x80#8]) ∧ codeAt [0x10#8, 0x80#8] 0x10#8 (ready [0x10#8, 0x80#8]) = true := by
  decide

theorem test_witness_LdiLoadsAImmediate :
    AtBoundary (ready [0x20#8, 0x5A#8]) ∧ codeAt [0x20#8, 0x5A#8] 0x10#8 (ready [0x20#8, 0x5A#8]) = true := by
  decide

theorem test_witness_LdbLoadsBFromMemory :
    AtBoundary (ready [0x37#8, 0x80#8]) ∧ codeAt [0x37#8, 0x80#8] 0x10#8 (ready [0x37#8, 0x80#8]) = true := by
  decide

theorem test_witness_LbiLoadsBImmediate :
    AtBoundary (ready [0x40#8, 0x5A#8]) ∧ codeAt [0x40#8, 0x5A#8] 0x10#8 (ready [0x40#8, 0x5A#8]) = true := by
  decide

theorem test_witness_StaStoresAToMemory :
    AtBoundary (ready [0x90#8, 0x80#8]) ∧ codeAt [0x90#8, 0x80#8] 0x10#8 (ready [0x90#8, 0x80#8]) = true := by
  decide

theorem test_witness_AddAddsTheByteAtAnAddress :
    AtBoundary (ready [0x50#8, 0x80#8]) ∧ codeAt [0x50#8, 0x80#8] 0x10#8 (ready [0x50#8, 0x80#8]) = true := by
  decide

theorem test_witness_AdiAddsTheImmediate :
    AtBoundary (ready [0x60#8, 0xEF#8]) ∧ codeAt [0x60#8, 0xEF#8] 0x10#8 (ready [0x60#8, 0xEF#8]) = true := by
  decide

theorem test_witness_SubSubtractsTheByteAtAnAddress :
    AtBoundary (ready [0x70#8, 0x80#8]) ∧ codeAt [0x70#8, 0x80#8] 0x10#8 (ready [0x70#8, 0x80#8]) = true := by
  decide

theorem test_witness_SbiSubtractsTheImmediate :
    AtBoundary (ready [0x80#8, 0x12#8]) ∧ codeAt [0x80#8, 0x12#8] 0x10#8 (ready [0x80#8, 0x12#8]) = true := by
  decide

theorem test_witness_CmpComparesWithTheByteAtAnAddress :
    AtBoundary (ready [0xB0#8, 0x80#8]) ∧ codeAt [0xB0#8, 0x80#8] 0x10#8 (ready [0xB0#8, 0x80#8]) = true := by
  decide

theorem test_witness_CpiComparesWithTheImmediate :
    AtBoundary (ready [0xC0#8, 0x11#8]) ∧ codeAt [0xC0#8, 0x11#8] 0x10#8 (ready [0xC0#8, 0x11#8]) = true := by
  decide

theorem test_witness_IncIncrementsMemory :
    AtBoundary (ready [0xF1#8, 0x80#8]) ∧ codeAt [0xF1#8, 0x80#8] 0x10#8 (ready [0xF1#8, 0x80#8]) = true := by
  decide

theorem test_witness_DecDecrementsMemory :
    AtBoundary (ready [0xF2#8, 0x80#8]) ∧ codeAt [0xF2#8, 0x80#8] 0x10#8 (ready [0xF2#8, 0x80#8]) = true := by
  decide

theorem test_witness_JmpJumpsAlways :
    AtBoundary (ready [0xA0#8, 0x40#8]) ∧ codeAt [0xA0#8, 0x40#8] 0x10#8 (ready [0xA0#8, 0x40#8]) = true := by
  decide

theorem test_witness_BnzBranchesOnANonzeroSum :
    AtBoundary (ready [0xD0#8, 0x40#8]) ∧ codeAt [0xD0#8, 0x40#8] 0x10#8 (ready [0xD0#8, 0x40#8]) = true := by
  decide

theorem test_witness_JzJumpsOnAZeroSum :
    AtBoundary (ready [0xE0#8, 0x40#8]) ∧ codeAt [0xE0#8, 0x40#8] 0x10#8 (ready [0xE0#8, 0x40#8]) = true := by
  decide

theorem test_witness_JcJumpsOnACarryingSum :
    AtBoundary (ready [0xF0#8, 0x40#8]) ∧ codeAt [0xF0#8, 0x40#8] 0x10#8 (ready [0xF0#8, 0x40#8]) = true := by
  decide

theorem test_witness_OutCopiesAToOutput :
    AtBoundary (ready [0xF3#8]) ∧ codeAt [0xF3#8] 0x10#8 (ready [0xF3#8]) = true := by
  decide

theorem test_witness_HltHaltsForGood :
    AtBoundary (ready [0xFF#8]) ∧ codeAt [0xFF#8] 0x10#8 (ready [0xFF#8]) = true := by
  decide

theorem test_witness_UnassignedOpcodesBehaveAsNop :
    AtBoundary (ready [0xF7#8]) ∧ codeAt [0xF7#8] 0x10#8 (ready [0xF7#8]) = true := by
  decide

/-- A and B on either side of each branch condition's edge. -/
theorem test_witness_branches_both_ways :
    ((0xFF#8 : Byte) + 0x01#8 == 0x00#8) = true ∧ ((0xFF#8 : Byte) + 0x00#8 == 0x00#8) = false ∧
      decide (255 < (0xFF#8 : Byte).toNat + (0x01#8 : Byte).toNat) = true ∧
      decide (255 < (0xFF#8 : Byte).toNat + (0x00#8 : Byte).toNat) = false := by
  decide

end Sys2Proof.Tests
end

section
/-! The state elements of 10_state.md: their reset values (R31) and the halt flag (R18). -/

namespace Sys2Proof.Machine

/-- A tick of a running machine leaves in `hlt` the halt bit of the word it applies (R18, R111). -/
theorem tickWith_hlt_of_running (w : ControlWord) {s : State} (h : s.hlt = false) :
    (tickWith w s).hlt = w.hlt := by
  simp [h]

/-- After a tick of a running machine the snapshot's halt bit is the halt flag (R18, R113). -/
theorem hlt_of_tick_running {s t : State} (h : s.hlt = false) (ht : tick s = .next t) :
    t.hlt = t.controlWord.hlt := by
  rcases tick_next_iff.mp ht with ⟨halted, -⟩ | ⟨-, rfl⟩
  · simp [h] at halted
  · rw [tickWith_hlt_of_running _ h, tickWith_controlWord]

/-- Any number of ticks of a halted machine answers the same state (R81). -/
theorem eq_of_runTicks_halted {n : Nat} {s t : State} (h : s.hlt = true)
    (ht : runTicks n s = .next t) : t = s := by
  rw [runTicks_halted n h] at ht
  exact (Host.Outcome.next.inj ht).symm

/-- Every byte of the reset memory reads 0x00, as no cell lists it (R17, R31). -/
theorem State.reset_memory_read (b : Byte) : State.reset.memory.read b = 0x00#8 :=
  Memory.read_nil b

/-- Settles O1: memory by the reading of an empty list of cells, each other element as `State.reset`
writes it. -/
theorem resetIsAllZeroButZeroFlag : Obligations.ResetIsAllZeroButZeroFlag := by
  have snapshot : State.reset.controlWord.toBits = 0x00000#17 := by decide
  exact ⟨rfl, rfl, rfl, rfl, State.reset_memory_read, rfl, rfl, rfl, rfl, rfl, rfl, rfl, rfl, snapshot⟩

/-- Settles O9: only a running machine's tick can change `hlt`, and that tick sets it by its word. -/
theorem haltFlagIsMonotonic : Obligations.HaltFlagIsMonotonic := by
  refine ⟨rfl, fun s t => hlt_of_tick_running, fun n s t h ht => ?_⟩
  have unchanged : t = s := eq_of_runTicks_halted h ht
  rw [unchanged, h]

end Sys2Proof.Machine
end

section
/-! The memory of 20_memory.md: which words of the ROM read or store (R43, R44, R54), and what a tick and a
run of ticks leave in memory. -/

namespace Sys2Proof.Machine

/-! ### The words of the ROM -/

/-- A word of the ROM is one of the fetch, one of the selector's row, or the filling SR: what holds of all
these holds of it (R84, R85, R90). -/
theorem rom_of_forall_row {P : ControlWord → Prop} {cf zf : Bool} {selector : Selector}
    (row : ∀ w ∈ executeRow cf zf selector, P w) (miCo : P .miCo) (roIiCe : P .roIiCe)
    (stepReset : P .stepReset) (t : Microstep) : P (rom cf zf selector t) := by
  unfold rom
  split
  · exact miCo
  · exact roIiCe
  · next k _ =>
    rcases Nat.lt_or_ge k (executeRow cf zf selector).length with inRow | pastRow
    · rw [List.getD_eq_getElem _ _ inRow]
      exact row _ (List.getElem_mem inRow)
    · rw [List.getD_eq_default _ _ pastRow]
      exact stepReset

/-- The words of every row are legal (R172). -/
theorem executeRow_legal (cf zf : Bool) (selector : Selector) :
    ∀ w ∈ executeRow cf zf selector, w.legal = true := by
  revert cf zf selector; decide

/-- Every word the decoder gives is legal (R172). -/
theorem nextWord_legal (s : State) : (nextWord s).legal = true :=
  rom_of_forall_row (executeRow_legal s.cf s.zf (sel s.ir)) rfl rfl rfl s.tStep

/-- What legality says of the bus and of memory: one driver, and neither MI nor RO beside RI (R105, R107,
R172). -/
theorem ControlWord.legal_bus_and_memory {w : ControlWord} (h : w.legal = true) :
    w.drivers ≤ 1 ∧ (w.mi && w.ri) = false ∧ (w.ro && w.ri) = false := by
  simp only [ControlWord.legal, Bool.and_eq_true, Bool.not_eq_true', decide_eq_true_eq] at h
  obtain ⟨⟨⟨⟨⟨oneDriver, noMiRi⟩, noRoRi⟩, -⟩, -⟩, -⟩ := h
  exact ⟨oneDriver, noMiRi, noRoRi⟩

/-- A legal word with RO does not store (R172). -/
theorem ControlWord.ri_of_ro {w : ControlWord} (h : w.legal = true) (hro : w.ro = true) :
    w.ri = false := by
  obtain ⟨-, -, noRoRi⟩ := legal_bus_and_memory h
  simpa [hro] using noRoRi

/-- A legal word with RI leaves `mar` alone (R107). -/
theorem ControlWord.mi_of_ri {w : ControlWord} (h : w.legal = true) (hri : w.ri = true) :
    w.mi = false := by
  obtain ⟨-, noMiRi, -⟩ := legal_bus_and_memory h
  simpa [hri] using noMiRi

/-- In a legal word with RO none of the drivers that win over it is asserted (R105). -/
theorem ControlWord.drivers_of_ro {w : ControlWord} (h : w.legal = true) (hro : w.ro = true) :
    w.ao = false ∧ w.eo = false ∧ w.k1 = false := by
  obtain ⟨oneDriver, -, -⟩ := legal_bus_and_memory h
  simp only [ControlWord.drivers, hro, Bool.toNat_true] at oneDriver
  simp only [← Bool.toNat_eq_zero]
  omega

/-! ### The storing microsteps -/

/-- Only the rows of STA, INC and DEC hold a word with RI (R54). -/
theorem executeRow_ri_of_other {selector : Selector} (notSta : selector ≠ 0x09#5)
    (notIncDec : ¬ (selector = 0x11#5 ∨ selector = 0x12#5)) (cf zf : Bool) :
    ∀ w ∈ executeRow cf zf selector, w.ri = false := by
  revert cf zf selector; decide

/-- In STA's row RI stands at microstep 4 only (R54). -/
theorem microstep_of_rom_ri_sta {cf zf : Bool} {t : Microstep} :
    (rom cf zf 0x09#5 t).ri = true → t = 4#4 := by
  revert cf zf t; decide

/-- In the rows of INC and DEC RI stands at microstep 6 only (R54). -/
theorem microstep_of_rom_ri_incDec {cf zf : Bool} {selector : Selector} {t : Microstep}
    (incDec : selector = 0x11#5 ∨ selector = 0x12#5) :
    (rom cf zf selector t).ri = true → t = 6#4 := by
  rcases incDec with rfl | rfl <;> revert cf zf t <;> decide

/-- A word with RI is that of microstep 4 of STA or of microstep 6 of INC or DEC (R54). -/
theorem storing_microstep_of_rom_ri {cf zf : Bool} {selector : Selector} {t : Microstep}
    (hri : (rom cf zf selector t).ri = true) :
    (selector = 0x09#5 ∧ t = 4#4) ∨ ((selector = 0x11#5 ∨ selector = 0x12#5) ∧ t = 6#4) := by
  by_cases sta : selector = 0x09#5
  · subst sta
    exact .inl ⟨rfl, microstep_of_rom_ri_sta hri⟩
  by_cases incDec : selector = 0x11#5 ∨ selector = 0x12#5
  · exact .inr ⟨incDec, microstep_of_rom_ri_incDec incDec hri⟩
  have noStore : (rom cf zf selector t).ri = false :=
    rom_of_forall_row (executeRow_ri_of_other sta incDec cf zf) rfl rfl rfl t
  simp [noStore] at hri

/-- When the next tick stores, and where: RI on a running machine, at `mar` (R44). -/
theorem storesAt_eq_some_iff {s : State} {b : Byte} :
    storesAt s = some b ↔ (s.hlt = false ∧ (nextWord s).ri = true) ∧ s.mar = b := by
  simp [storesAt]

/-! ### What a tick leaves on the bus and in memory -/

/-- The bus after a tick: the last asserted driver, EO giving the sum or difference of this tick (R103). -/
theorem tickWith_bus (w : ControlWord) (s : State) :
    (tickWith w s).bus = if w.k1 then 0x01#8 else if w.eo then (alu w.su s.regA s.regB).1
      else if w.ao then s.regA else if w.ro then s.memory.read s.mar
      else if w.co then s.pc else s.bus := rfl

/-- A legal word with RO puts the byte at `mar` on the bus (R43). -/
theorem tickWith_bus_of_ro {w : ControlWord} (legal : w.legal = true) (hro : w.ro = true) (s : State) :
    (tickWith w s).bus = s.memory.read s.mar := by
  obtain ⟨hao, heo, hk1⟩ := ControlWord.drivers_of_ro legal hro
  simp [tickWith_bus, hro, hao, heo, hk1]

/-- A word without RI leaves the cells of memory as they are (R54). -/
theorem tickWith_memory_of_not_ri {w : ControlWord} (hri : w.ri = false) (s : State) :
    (tickWith w s).memory = s.memory := by
  simp [tickWith, applyWord, hri]

/-- A legal word with RI writes the tick's bus value at the `mar` of its start (R44). -/
theorem tickWith_memory_of_ri {w : ControlWord} (legal : w.legal = true) (hri : w.ri = true)
    (s : State) : (tickWith w s).memory = s.memory.write s.mar (tickWith w s).bus := by
  simp [tickWith, applyWord, hri, ControlWord.mi_of_ri legal hri]

/-- A tick leaves alone every byte it does not store to (R54). -/
theorem read_of_tick_not_storing {s t : State} {b : Byte} (ht : tick s = .next t)
    (hb : storesAt s ≠ some b) : t.memory.read b = s.memory.read b := by
  rcases tick_next_iff.mp ht with ⟨-, rfl⟩ | ⟨running, rfl⟩
  · rfl
  cases hri : (nextWord s).ri with
  | false => rw [tickWith_memory_of_not_ri hri]
  | true =>
    have elsewhere : b ≠ s.mar := fun h => hb (storesAt_eq_some_iff.mpr ⟨⟨running, hri⟩, h.symm⟩)
    rw [tickWith_memory_of_ri (nextWord_legal s) hri, Memory.read_write_other _ _ elsewhere]

/-- Every tick answers a next state (R45, R80). -/
theorem exists_tick_next (s : State) : ∃ t, tick s = .next t := by
  cases h : s.hlt with
  | true => exact ⟨s, tick_halted h⟩
  | false => exact ⟨_, tick_running h⟩

/-- A run of ticks leaves alone every byte that none of them stores to (R54). -/
theorem read_of_runTicks_not_storing {n : Nat} {s t : State} {b : Byte}
    (ht : runTicks n s = .next t)
    (hb : ∀ (k : Nat) (u : State), k < n → runTicks k s = .next u → storesAt u ≠ some b) :
    t.memory.read b = s.memory.read b := by
  induction n generalizing s with
  | zero => cases ht; rfl
  | succ n ih =>
    obtain ⟨u, hu⟩ := exists_tick_next s
    rw [runTicks_next n hu] at ht
    have fromFirst : ∀ (k : Nat) (v : State), k < n → runTicks k u = .next v → storesAt v ≠ some b :=
      fun k v hk hv => hb (k + 1) v (Nat.succ_lt_succ hk) ((runTicks_next k hu).trans hv)
    calc t.memory.read b = u.memory.read b := ih ht fromFirst
      _ = s.memory.read b := read_of_tick_not_storing hu (hb 0 s n.succ_pos (runTicks_zero s))

/-- Settles O11: by induction on the run, each tick leaving alone the bytes it does not store to; and the
ROM has RI in three cells only. -/
theorem noSpuriousWrites : Obligations.NoSpuriousWrites := by
  refine ⟨fun n s t b => read_of_runTicks_not_storing, fun s b hb => ?_⟩
  obtain ⟨⟨-, hri⟩, hmar⟩ := storesAt_eq_some_iff.mp hb
  exact ⟨hmar.symm, storing_microstep_of_rom_ri hri⟩

/-- Settles O12: the word of the tick is legal, so that RO has the bus to itself and RI stands without MI. -/
theorem memoryIsReadAndWrittenAtMar : Obligations.MemoryIsReadAndWrittenAtMar := by
  intro s running
  have legal := nextWord_legal s
  have unchanged (hri : (nextWord s).ri = false) : SameMemory s (tickWith (nextWord s) s) :=
    fun b => by rw [tickWith_memory_of_not_ri hri]
  refine ⟨_, tick_running running, fun hro => ?_, fun hri => ?_, unchanged⟩
  · exact ⟨tickWith_bus_of_ro legal hro s, unchanged (ControlWord.ri_of_ro legal hro)⟩
  · refine ⟨ControlWord.mi_of_ri legal hri, ?_, fun b hb => ?_⟩
    · rw [tickWith_memory_of_ri legal hri, Memory.read_write_same]
    · rw [tickWith_memory_of_ri legal hri, Memory.read_write_other _ _ hb]

end Sys2Proof.Machine
end

section
/-! The sequencer and the decoder of 40_sequencer_and_decoder.md: the two fetch microsteps (R84, R85) and the
length of an instruction cycle (R95). -/

namespace Sys2Proof.Machine

/-! ### What a tick leaves in the latches (R106, R108, R109) -/

@[simp] theorem tickWith_regA (w : ControlWord) (s : State) :
    (tickWith w s).regA = if w.ai then (tickWith w s).bus else s.regA := rfl

@[simp] theorem tickWith_regB (w : ControlWord) (s : State) :
    (tickWith w s).regB = if w.bi then (tickWith w s).bus else s.regB := rfl

@[simp] theorem tickWith_output (w : ControlWord) (s : State) :
    (tickWith w s).output = if w.oi then (tickWith w s).bus else s.output := rfl

@[simp] theorem tickWith_ir (w : ControlWord) (s : State) :
    (tickWith w s).ir = if w.ii then (tickWith w s).bus else s.ir := rfl

@[simp] theorem tickWith_mar (w : ControlWord) (s : State) :
    (tickWith w s).mar = if w.mi then (tickWith w s).bus else s.mar := rfl

/-- The program counter after a tick: counter-enable acts before jump (R108, R109). -/
theorem tickWith_pc (w : ControlWord) (s : State) :
    (tickWith w s).pc =
      if w.j then (if w.fg then (tickWith w s).bus else inc8 (if w.ce then inc8 s.pc else s.pc))
      else (if w.ce then inc8 s.pc else s.pc) := rfl

/-- A word without RI leaves every byte of memory as it reads (R54). -/
theorem sameMemory_tickWith_of_not_ri {w : ControlWord} (hri : w.ri = false) (s : State) :
    SameMemory s (tickWith w s) :=
  fun b => by rw [tickWith_memory_of_not_ri hri]

/-- A word with neither AI, BI nor OI leaves the registers and the output alone (R106). -/
theorem registersHold_tickWith {w : ControlWord} (hai : w.ai = false) (hbi : w.bi = false)
    (hoi : w.oi = false) (s : State) : RegistersHold s.regA s.regB s.output (tickWith w s) := by
  simp [RegistersHold, hai, hbi, hoi]

/-! ### The fetch microsteps -/

/-- The tick at microstep 0 applies MI+CO (R84). -/
theorem tick_at_microstep_zero {s : State} (running : s.hlt = false) (atZero : s.tStep = 0#4) :
    tick s = .next (tickWith .miCo s) ∧ (tickWith .miCo s).tStep = 1#4 := by
  have word : nextWord s = .miCo := by rw [nextWord, atZero, decodeControl_zero]
  exact ⟨word ▸ tick_running running, by simp [ControlWord.miCo, atZero]⟩

/-- The tick at microstep 1 applies RO+II+CE (R85). -/
theorem tick_at_microstep_one {s : State} (running : s.hlt = false) (atOne : s.tStep = 1#4) :
    tick s = .next (tickWith .roIiCe s) ∧ (tickWith .roIiCe s).tStep = 2#4 := by
  have word : nextWord s = .roIiCe := by rw [nextWord, atOne, decodeControl_one]
  exact ⟨word ▸ tick_running running, by simp [ControlWord.roIiCe, atOne]⟩

/-- MI+CO puts `pc` on the bus and in `mar` (R84). -/
theorem latchesHold_tickWith_miCo (s : State) :
    LatchesHold s.ir s.pc s.pc s.pc (tickWith .miCo s) := by
  simp [LatchesHold, tickWith_bus, tickWith_pc, ControlWord.miCo]

/-- RO+II+CE puts the byte at `mar` on the bus and in `ir`, and increments `pc` (R85). -/
theorem latchesHold_tickWith_roIiCe (s : State) :
    LatchesHold (s.memory.read s.mar) s.mar (s.memory.read s.mar) (s.pc + 1#8)
      (tickWith .roIiCe s) := by
  simp [LatchesHold, tickWith_bus, tickWith_pc, ControlWord.roIiCe, inc8_eq]

/-- Settles O8: the decoder gives the two words whatever `ir` and the flags are; neither has AI, BI, OI, RI
or SR. -/
theorem fetchMicrostepsReadTheOpcode : Obligations.FetchMicrostepsReadTheOpcode := by
  refine ⟨fun ir cf zf => ⟨decodeControl_zero ir cf zf, decodeControl_one ir cf zf⟩, by decide,
    by decide, fun s running atZero => ?_, fun s running atOne => ?_⟩
  · obtain ⟨ticks, counts⟩ := tick_at_microstep_zero running atZero
    exact ⟨_, ticks, latchesHold_tickWith_miCo s, counts, registersHold_tickWith rfl rfl rfl s,
      sameMemory_tickWith_of_not_ri rfl s⟩
  · obtain ⟨ticks, counts⟩ := tick_at_microstep_one running atOne
    exact ⟨_, ticks, latchesHold_tickWith_roIiCe s, counts, registersHold_tickWith rfl rfl rfl s,
      sameMemory_tickWith_of_not_ri rfl s⟩

/-! ### The row of the instruction fetched -/

/-- The opcode byte of an extended instruction does not depend on its operand byte (R64). -/
theorem opcode_decodeExtended_operand (d e : Byte) (b₃ b₂ b₁ b₀ : Bool) :
    (decodeExtended d b₃ b₂ b₁ b₀).opcode = (decodeExtended e b₃ b₂ b₁ b₀).opcode := by
  unfold decodeExtended
  split <;> rfl

/-- The opcode byte of a decoded instruction does not depend on the byte after it (R68). -/
theorem opcode_decodePair_operand (op d e : Byte) :
    (decodePair op d).opcode = (decodePair op e).opcode := by
  unfold decodePair
  split
  case h_16 => exact opcode_decodeExtended_operand d e _ _ _ _
  all_goals rfl

/-- A decoded instruction has the opcode byte it was decoded from (R64 to R67). -/
theorem opcode_decodePair (op d : Byte) : (decodePair op d).opcode = op := by
  have withZero : ∀ b : Byte, (decodePair b 0x00#8).opcode = b := by decide
  rw [opcode_decodePair_operand op d 0x00#8, withZero]

/-- The row that an instruction's opcode byte selects has the instruction's own count of microsteps (R64,
R171). -/
theorem executeSteps_sel_opcode (i : Instr) : executeSteps (sel i.opcode) = executeCount i := by
  cases i with
  | nop x => exact Laws.RowLength.nop x
  | lda x a => exact Laws.RowLength.lda x a
  | ldi x k => exact Laws.RowLength.ldi x k
  | ldb x a => exact Laws.RowLength.ldb x a
  | lbi x k => exact Laws.RowLength.lbi x k
  | add x a => exact Laws.RowLength.add x a
  | adi x k => exact Laws.RowLength.adi x k
  | sub x a => exact Laws.RowLength.sub x a
  | sbi x k => exact Laws.RowLength.sbi x k
  | sta x a => exact Laws.RowLength.sta x a
  | jmp x t => exact Laws.RowLength.jmp x t
  | cmp x a => exact Laws.RowLength.cmp x a
  | cpi x k => exact Laws.RowLength.cpi x k
  | bnz x t => exact Laws.RowLength.bnz x t
  | jz x t => exact Laws.RowLength.jz x t
  | jc t => exact Laws.RowLength.jc t
  | inc a => exact Laws.RowLength.inc a
  | dec a => exact Laws.RowLength.dec a
  | out => exact Laws.RowLength.out
  | hlt => exact Laws.RowLength.hlt
  | unassignedF4 => exact Laws.RowLength.unassignedF4
  | unassignedF5 => exact Laws.RowLength.unassignedF5
  | unassignedF6 => exact Laws.RowLength.unassignedF6
  | unassignedF7 => exact Laws.RowLength.unassignedF7
  | unassignedF8 => exact Laws.RowLength.unassignedF8
  | unassignedF9 => exact Laws.RowLength.unassignedF9
  | unassignedFA => exact Laws.RowLength.unassignedFA
  | unassignedFB => exact Laws.RowLength.unassignedFB
  | unassignedFC => exact Laws.RowLength.unassignedFC
  | unassignedFD => exact Laws.RowLength.unassignedFD
  | unassignedFE => exact Laws.RowLength.unassignedFE

/-- The count of the instruction at `pc` is the length of the row that the byte at `pc` selects (R95). -/
theorem executeCount_fetchInstr (s : State) :
    executeCount (fetchInstr s) = executeSteps (sel (s.memory.read s.pc)) := by
  rw [← executeSteps_sel_opcode, fetchInstr, opcode_decodePair, fetchBytes]

/-- Only HLT's opcode byte selects HLT's row (R63, R64). -/
theorem sel_eq_halt_iff (op : Byte) : sel op = 0x1F#5 ↔ op = 0xFF#8 := by
  revert op; decide

/-- A row has at least one microstep and at most six (R97, R171). -/
theorem executeSteps_bounds (selector : Selector) :
    0 < executeSteps selector ∧ executeSteps selector ≤ 6 := by
  revert selector; decide

/-- The length of a row does not depend on the flags (R94, R171). -/
theorem executeRow_length (cf zf : Bool) (selector : Selector) :
    (executeRow cf zf selector).length = executeSteps selector := by
  revert cf zf selector; decide

/-- No word of a row latches the instruction register (R96). -/
theorem executeRow_ii (cf zf : Bool) (selector : Selector) :
    ∀ w ∈ executeRow cf zf selector, w.ii = false := by
  revert cf zf selector; decide

/-- HLT stands in the row of the halt instruction only (R171). -/
theorem executeRow_hlt_of_other {selector : Selector} (other : selector ≠ 0x1F#5) (cf zf : Bool) :
    ∀ w ∈ executeRow cf zf selector, w.hlt = false := by
  revert cf zf selector; decide

/-- SR stands at the last microstep of a row and at no other (R87, R88, R171). -/
theorem executeRow_sr (cf zf : Bool) (selector : Selector)
    (j : Fin (executeRow cf zf selector).length) :
    (executeRow cf zf selector)[j].sr = decide (j.val + 1 = executeSteps selector) := by
  revert cf zf selector; decide

/-- The word of an execute microstep is its place in the selected row (R86, R171). -/
theorem nextWord_of_row {s : State} {j : Nat} (microstep : s.tStep.toNat = j + 2)
    (inRow : j < (executeRow s.cf s.zf (sel s.ir)).length) :
    nextWord s = (executeRow s.cf s.zf (sel s.ir))[j] := by
  rw [nextWord, decodeControl, rom, microstep]
  exact List.getD_eq_getElem _ _ inRow

/-! ### The execute microsteps, tick by tick -/

/-- The machine runs and the next tick decodes microstep `k` of the opcode byte `op`. -/
def AtMicrostep (op : Byte) (k : Nat) (s : State) : Prop :=
  s.hlt = false ∧ s.tStep.toNat = k ∧ s.ir = op

/-- One tick from a boundary the machine runs at microstep 1, and two ticks from it the opcode byte stands
in `ir` and the first execute microstep is next (R84, R85). -/
theorem runTicks_fetch {s : State} (h : AtBoundary s) :
    ∃ t u, runTicks 1 s = .next t ∧ t.hlt = false ∧ t.tStep = 1#4 ∧
      runTicks 2 s = .next u ∧ AtMicrostep (s.memory.read s.pc) 2 u := by
  obtain ⟨running, atZero⟩ := h
  obtain ⟨first, atOne⟩ := tick_at_microstep_zero running atZero
  have runningOn : (tickWith .miCo s).hlt = false := by
    rw [tickWith_hlt_of_running _ running]; rfl
  obtain ⟨second, atTwo⟩ := tick_at_microstep_one runningOn atOne
  have one : runTicks 1 s = .next (tickWith .miCo s) := runTicks_next 0 first
  obtain ⟨-, mar, -, -⟩ := latchesHold_tickWith_miCo s
  obtain ⟨ir, -, -, -⟩ := latchesHold_tickWith_roIiCe (tickWith .miCo s)
  refine ⟨_, _, one, runningOn, atOne, runTicks_snoc one second, ?_, by rw [atTwo]; rfl, ?_⟩
  · rw [tickWith_hlt_of_running _ runningOn]; rfl
  · rw [ir, mar, sameMemory_tickWith_of_not_ri rfl]

/-- What the word of an execute microstep other than HLT's does to the sequencer: `ir` stays, the machine
runs on, and `t_step` is reset at the last microstep only (R90, R95). -/
theorem nextWord_atMicrostep {op : Byte} {j : Nat} {s : State} (h : AtMicrostep op (j + 2) s)
    (notHalt : op ≠ 0xFF#8) (inRow : j < executeSteps (sel op)) :
    (nextWord s).ii = false ∧ (nextWord s).hlt = false ∧
      (nextWord s).sr = decide (j + 1 = executeSteps (sel op)) := by
  obtain ⟨-, microstep, rfl⟩ := h
  have other : sel s.ir ≠ 0x1F#5 := (sel_eq_halt_iff s.ir).not.mpr notHalt
  rw [← executeRow_length s.cf s.zf] at inRow
  rw [nextWord_of_row microstep inRow]
  have mem := List.getElem_mem inRow
  exact ⟨executeRow_ii _ _ _ _ mem, executeRow_hlt_of_other other _ _ _ mem,
    executeRow_sr _ _ _ ⟨_, inRow⟩⟩

/-- A microstep that is not the last of its row leads to the next one (R95). -/
theorem atMicrostep_succ {op : Byte} {j : Nat} {s : State} (h : AtMicrostep op (j + 2) s)
    (notHalt : op ≠ 0xFF#8) (notLast : j + 1 < executeSteps (sel op)) :
    ∃ t, tick s = .next t ∧ AtMicrostep op (j + 3) t := by
  obtain ⟨ii, hlt, sr⟩ := nextWord_atMicrostep h notHalt (Nat.lt_of_succ_lt notLast)
  obtain ⟨running, microstep, opcode⟩ := h
  have noReset : (nextWord s).sr = false := by rw [sr, decide_eq_false notLast.ne]
  have bound := (executeSteps_bounds (sel op)).2
  refine ⟨_, tick_running running, by simp [hlt, running], ?_, by simp [ii, opcode]⟩
  simp only [tickWith_tStep, noReset, Bool.false_eq_true, if_false]
  bv_omega

/-- The last microstep of a row leads to a boundary (R95, R110). -/
theorem atBoundary_of_last_microstep {op : Byte} {j : Nat} {s : State}
    (h : AtMicrostep op (j + 2) s) (notHalt : op ≠ 0xFF#8) (last : j + 1 = executeSteps (sel op)) :
    ∃ t, tick s = .next t ∧ AtBoundary t := by
  obtain ⟨-, hlt, sr⟩ := nextWord_atMicrostep h notHalt (Nat.lt_of_succ_le last.le)
  have reset : (nextWord s).sr = true := by rw [sr, decide_eq_true last]
  obtain ⟨running, -, -⟩ := h
  exact ⟨_, tick_running running, by simp [hlt, running], by simp [reset]⟩

/-- Within a row every tick counts `t_step` up by one (R95). -/
theorem runTicks_within_row {op : Byte} {s : State} (h : AtMicrostep op 2 s)
    (notHalt : op ≠ 0xFF#8) {j : Nat} (inRow : j < executeSteps (sel op)) :
    ∃ u, runTicks j s = .next u ∧ AtMicrostep op (j + 2) u := by
  induction j with
  | zero => exact ⟨s, runTicks_zero s, h⟩
  | succ j ih =>
    obtain ⟨u, hu, atJ⟩ := ih (Nat.lt_of_succ_lt inRow)
    obtain ⟨v, hv, atNext⟩ := atMicrostep_succ atJ notHalt inRow
    exact ⟨v, runTicks_snoc hu hv, atNext⟩

/-- As many ticks as the row has microsteps lead from its first one to a boundary (R95). -/
theorem runTicks_whole_row {op : Byte} {s : State} (h : AtMicrostep op 2 s)
    (notHalt : op ≠ 0xFF#8) :
    ∃ t, runTicks (executeSteps (sel op)) s = .next t ∧ AtBoundary t := by
  obtain ⟨j, last⟩ := Nat.exists_eq_succ_of_ne_zero (executeSteps_bounds (sel op)).1.ne'
  obtain ⟨u, hu, atLast⟩ := runTicks_within_row h notHalt (last ▸ j.lt_succ_self)
  obtain ⟨t, ht, boundary⟩ := atBoundary_of_last_microstep atLast notHalt last.symm
  exact ⟨t, last ▸ runTicks_snoc hu ht, boundary⟩

/-- The first execute microstep of HLT halts, and `t_step` goes on to 3 (R111, R162). -/
theorem halts_of_atMicrostep_two {s : State} (h : AtMicrostep 0xFF#8 2 s) :
    ∃ t, tick s = .next t ∧ t.hlt = true ∧ t.tStep = 3#4 := by
  obtain ⟨running, microstep, opcode⟩ := h
  have atTwo : s.tStep = 2#4 := BitVec.eq_of_toNat_eq microstep
  have word : nextWord s = .halt := by rw [nextWord, atTwo, opcode]; rfl
  exact ⟨_, tick_running running, by simp [word, ControlWord.halt],
    by simp [word, ControlWord.halt, atTwo]⟩

/-! ### The whole cycle -/

/-- From a boundary `2 + N` ticks lead to a boundary, unless the instruction is HLT (R95). -/
theorem runTicks_whole_cycle {s : State} (h : AtBoundary s) (notHalt : s.memory.read s.pc ≠ 0xFF#8) :
    ∃ t, runTicks (2 + executeCount (fetchInstr s)) s = .next t ∧ AtBoundary t := by
  obtain ⟨_, u, -, -, -, fetch, atTwo⟩ := runTicks_fetch h
  rw [runTicks_add fetch, executeCount_fetchInstr]
  exact runTicks_whole_row atTwo notHalt

/-- Within a cycle the machine runs and `t_step` counts the ticks since the boundary (R95). -/
theorem runTicks_within_cycle {s : State} (h : AtBoundary s) (notHalt : s.memory.read s.pc ≠ 0xFF#8)
    {k : Nat} (hk : k < 2 + executeCount (fetchInstr s)) :
    ∃ u, runTicks k s = .next u ∧ u.hlt = false ∧ u.tStep.toNat = k := by
  obtain ⟨t, u, first, runningOn, atOne, fetch, atTwo⟩ := runTicks_fetch h
  obtain ⟨running, atZero⟩ := h
  match k with
  | 0 => exact ⟨s, runTicks_zero s, running, by rw [atZero]; rfl⟩
  | 1 => exact ⟨t, first, runningOn, by rw [atOne]; rfl⟩
  | j + 2 =>
    rw [executeCount_fetchInstr] at hk
    obtain ⟨v, hv, running, microstep, -⟩ :=
      runTicks_within_row atTwo notHalt (j := j) (by omega)
    exact ⟨v, by rw [Nat.add_comm, runTicks_add fetch, hv], running, microstep⟩

/-- Three ticks from a boundary HLT has halted the machine, and a fourth changes nothing (R81, R95). -/
theorem runTicks_halt_cycle {s : State} (h : AtBoundary s) (isHalt : s.memory.read s.pc = 0xFF#8) :
    ∃ t, runTicks 3 s = .next t ∧ t.hlt = true ∧ t.tStep = 3#4 ∧ runTicks 4 s = .next t := by
  obtain ⟨_, u, -, -, -, fetch, atTwo⟩ := runTicks_fetch h
  obtain ⟨t, ht, halted, atThree⟩ := halts_of_atMicrostep_two (isHalt ▸ atTwo)
  have third : runTicks 3 s = .next t := runTicks_snoc fetch ht
  exact ⟨t, third, halted, atThree, runTicks_snoc third (tick_halted halted)⟩

/-- Settles O13: the fetch takes two ticks, and then `t_step` walks the row of the byte fetched, whose only
SR is at its end and which halts only for 0xFF. -/
theorem cycleTakesTwoPlusNTicks : Obligations.CycleTakesTwoPlusNTicks :=
  fun _ boundary => ⟨fun notHalt => ⟨runTicks_whole_cycle boundary notHalt,
    fun _ => runTicks_within_cycle boundary notHalt⟩, runTicks_halt_cycle boundary⟩

end Sys2Proof.Machine
end

section
/-! The datapath of 41_datapath_apply.md: the ALU and the flags (R101, R102), the bus drivers (R103), the
counter, jump, step-reset and halt stages (R108 to R111), and the snapshot of the control word (R113). -/

namespace Sys2Proof.Machine

/-! ### The ALU and the flags (R101, R102) -/

/-- The 8-bit sum as a number (R102). -/
theorem add8_toNat (a b : Byte) : (add8 a b).1.toNat = (a.toNat + b.toNat) % 256 :=
  BitVec.toNat_add a b

/-- The carry of a sum as an inequality (R102). -/
theorem add8_carry_iff (a b : Byte) : (add8 a b).2 = true ↔ a.toNat + b.toNat > 255 :=
  decide_eq_true_iff

/-- The 8-bit difference as a number, which is the integer difference wrapped (R102). -/
theorem sub8_toNat (a b : Byte) : ((sub8 a b).1.toNat : Int) = ((a.toNat : Int) - b.toNat) % 256 := by
  have := a.isLt
  have := b.isLt
  have difference : (sub8 a b).1.toNat = (256 - b.toNat + a.toNat) % 256 := BitVec.toNat_sub a b
  omega

/-- The borrow of a difference as an inequality (R102). -/
theorem sub8_borrow_iff (a b : Byte) : (sub8 a b).2 = true ↔ a.toNat < b.toNat :=
  decide_eq_true_iff

/-- Whatever its word, a tick leaves the ALU output and the flags of A and B at its start (R101). -/
theorem flagsOf_tickWith (w : ControlWord) (s : State) :
    FlagsOf (alu w.su s.regA s.regB) (tickWith w s) :=
  ⟨tickWith_aluOut w s, tickWith_cf w s, tickWith_zf w s⟩

/-- Settles O3: the tick leaves the ALU's result, which the subtract line of its word makes the sum or the
difference. -/
theorem everyTickRecomputesAluAndFlags : Obligations.EveryTickRecomputesAluAndFlags := by
  intro s running
  obtain ⟨aluOut, cf, zf⟩ := flagsOf_tickWith (nextWord s) s
  refine ⟨_, tick_running running, fun add => ?_, fun sub => ?_, ?_⟩
  · rw [tickWith_controlWord] at add
    rw [aluOut, cf, add, alu_false]
    exact ⟨add8_toNat _ _, add8_carry_iff _ _⟩
  · rw [tickWith_controlWord] at sub
    rw [aluOut, cf, sub, alu_true]
    exact ⟨sub8_toNat _ _, sub8_borrow_iff _ _⟩
  · rw [zf, aluOut, beq_iff_eq]

/-! ### The snapshot (R113) -/

/-- After a tick of a running machine the snapshot holds the word that the tick decoded (R113). -/
theorem controlWord_of_tick_running {s t : State} (h : s.hlt = false) (ht : tick s = .next t) :
    t.controlWord = nextWord s := by
  rcases tick_next_iff.mp ht with ⟨halted, -⟩ | ⟨-, rfl⟩
  · simp [h] at halted
  · exact tickWith_controlWord _ _

/-- A word of a row that asserts HLT asserts nothing else (R171). -/
theorem executeRow_eq_halt_of_hlt (cf zf : Bool) (selector : Selector) :
    ∀ w ∈ executeRow cf zf selector, w.hlt = true → w = .halt := by
  revert cf zf selector; decide

/-- A decoded word that asserts HLT asserts nothing else (R171). -/
theorem nextWord_eq_halt_of_hlt {s : State} : (nextWord s).hlt = true → nextWord s = .halt :=
  rom_of_forall_row (P := fun w => w.hlt = true → w = .halt)
    (executeRow_eq_halt_of_hlt s.cf s.zf (sel s.ir)) nofun nofun nofun s.tStep

/-- The tick that halts a running machine leaves HLT in the snapshot (R113, R162). -/
theorem controlWord_of_halting_tick {s t : State} (h : s.hlt = false) (ht : tick s = .next t)
    (halted : t.hlt = true) : t.controlWord = .halt := by
  have word := controlWord_of_tick_running h ht
  rw [hlt_of_tick_running h ht, word] at halted
  rw [word, nextWord_eq_halt_of_hlt halted]

/-- Three ticks from a boundary with 0xFF at `pc` the machine has halted, with HLT in the snapshot (R113,
R162). -/
theorem controlWord_of_halt_cycle {s : State} (h : AtBoundary s)
    (isHalt : s.memory.read s.pc = 0xFF#8) :
    ∃ t, runTicks 3 s = .next t ∧ t.hlt = true ∧ t.controlWord = .halt := by
  obtain ⟨_, u, -, -, -, fetch, atTwo⟩ := runTicks_fetch h
  obtain ⟨t, ht, halted, -⟩ := halts_of_atMicrostep_two (isHalt ▸ atTwo)
  obtain ⟨running, -, -⟩ := atTwo
  exact ⟨t, runTicks_snoc fetch ht, halted, controlWord_of_halting_tick running ht halted⟩

/-- Settles O7: every running tick stores its word; the third tick of HLT stores HLT and halts, and no later
tick replaces it. -/
theorem snapshotHoldsTheLastWord : Obligations.SnapshotHoldsTheLastWord := by
  refine ⟨fun s t => controlWord_of_tick_running, fun s n boundary isHalt => ?_⟩
  obtain ⟨t, third, halted, word⟩ := controlWord_of_halt_cycle boundary isHalt
  have forGood : runTicks (3 + n) s = .next t := by rw [runTicks_add third, runTicks_halted n halted]
  exact ⟨t, forGood, word, by rw [word]; decide⟩

/-! ### The bus drivers (R103, R105) -/

/-- In a word with at most one driver, an asserted one has none of those that win over it beside it (R105). -/
theorem ControlWord.later_drivers_low {w : ControlWord} (h : w.drivers ≤ 1) :
    (w.co = true → w.ro = false ∧ w.ao = false ∧ w.eo = false ∧ w.k1 = false) ∧
    (w.ro = true → w.ao = false ∧ w.eo = false ∧ w.k1 = false) ∧
    (w.ao = true → w.eo = false ∧ w.k1 = false) ∧
    (w.eo = true → w.k1 = false) := by
  simp only [ControlWord.drivers] at h
  simp only [← Bool.toNat_eq_one, ← Bool.toNat_eq_zero]
  omega

/-- Settles O4: the asserted driver is the last one, so that the bus takes its source. -/
theorem theAssertedDriverDrivesTheBus : Obligations.TheAssertedDriverDrivesTheBus := by
  intro w s oneDriver
  obtain ⟨ofCo, ofRo, ofAo, ofEo⟩ := ControlWord.later_drivers_low oneDriver
  rw [tickWith_bus, tickWith_aluOut]
  refine ⟨fun co => ?_, fun ro => ?_, fun ao => ?_, fun eo => ?_⟩
  · obtain ⟨ro, ao, eo, k1⟩ := ofCo co
    simp [co, ro, ao, eo, k1]
  · obtain ⟨ao, eo, k1⟩ := ofRo ro
    simp [ro, ao, eo, k1]
  · obtain ⟨eo, k1⟩ := ofAo ao
    simp [ao, eo, k1]
  · simp [eo, ofEo eo]

/-! ### Counter, jump, step-reset and halt (R108 to R111) -/

/-- A legal word with J does not count up (R109, R172). -/
theorem ControlWord.ce_of_j {w : ControlWord} (h : w.legal = true) (hj : w.j = true) :
    w.ce = false := by
  simp only [ControlWord.legal, Bool.and_eq_true, Bool.not_eq_true'] at h
  obtain ⟨⟨⟨-, noJumpCount⟩, -⟩, -⟩ := h
  simpa [hj] using noJumpCount

/-- Every word of the ROM is legal (R172). -/
theorem rom_legal (cf zf : Bool) (selector : Selector) (t : Microstep) :
    (rom cf zf selector t).legal = true :=
  rom_of_forall_row (executeRow_legal cf zf selector) rfl rfl rfl t

/-- In the row of JMP the flag-gate is asserted exactly where J is, whatever the flags (R109). -/
theorem executeRow_jmp_gate (cf zf : Bool) : ∀ w ∈ executeRow cf zf 0x0A#5, w.fg = w.j := by
  revert cf zf; decide

/-- A tick under a word with CE and without J increments `pc` (R108). -/
theorem tickWith_pc_of_ce {w : ControlWord} (hce : w.ce = true) (hj : w.j = false) (s : State) :
    (tickWith w s).pc = s.pc + 1#8 := by
  simp [tickWith_pc, hce, hj, inc8_eq]

/-- Settles O6: the stages of the tick one by one, and of the ROM its legality and the row of JMP. -/
theorem counterJumpStepResetAndHalt : Obligations.CounterJumpStepResetAndHalt := by
  intro w s counted
  have halts : (tickWith w s).hlt = (w.hlt || s.hlt) := by
    rw [tickWith_hlt]; cases w.hlt <;> rfl
  refine ⟨tickWith_pc w s, tickWith_tStep w s, halts, fun oneDriver co ce => ?_,
    fun _ => flagsOf_tickWith w s, fun cf zf selector t => ⟨?_, ?_⟩⟩
  · obtain ⟨drivesPc, -, -, -⟩ := theAssertedDriverDrivesTheBus w s oneDriver
    exact ⟨drivesPc co, fun noJump => tickWith_pc_of_ce ce noJump s⟩
  · exact ControlWord.ce_of_j (rom_legal cf zf selector t)
  · rintro rfl
    exact rom_of_forall_row (P := fun w => w.fg = w.j) (executeRow_jmp_gate cf zf) rfl rfl rfl t

end Sys2Proof.Machine
end

section
/-! The system instructions of 45_system.md: the fetch as a run of named words, the cycle of a row that is SR
alone, and NOP (R160). -/

namespace Sys2Proof.Machine

/-- From a boundary the two fetch words lead to microstep 2 of the opcode byte at `pc` (R84, R85). -/
theorem appliesWords_fetch {s : State} (h : AtBoundary s) :
    AppliesWords [.miCo, .roIiCe] s (tickWith .roIiCe (tickWith .miCo s)) ∧
      AtMicrostep (s.memory.read s.pc) 2 (tickWith .roIiCe (tickWith .miCo s)) := by
  obtain ⟨running, atZero⟩ := h
  obtain ⟨first, atOne⟩ := tick_at_microstep_zero running atZero
  have runningOn : (tickWith .miCo s).hlt = false := tickWith_hlt_of_running _ running
  obtain ⟨second, atTwo⟩ := tick_at_microstep_one runningOn atOne
  obtain ⟨ir, -, -, -⟩ := latchesHold_tickWith_roIiCe (tickWith .miCo s)
  obtain ⟨-, mar, -, -⟩ := latchesHold_tickWith_miCo s
  refine ⟨⟨_, running, first, rfl, _, runningOn, second, rfl, rfl⟩, ?_, by rw [atTwo]; rfl, ?_⟩
  · exact tickWith_hlt_of_running _ runningOn
  · rw [ir, mar, sameMemory_tickWith_of_not_ri rfl]

/-- At microstep 2 of an opcode byte whose row is SR alone, the next tick applies SR (R171). -/
theorem appliesWords_stepReset {op : Byte} {s : State} (h : AtMicrostep op 2 s)
    (row : ∀ cf zf, executeRow cf zf (sel op) = [.stepReset]) :
    AppliesWords [.stepReset] s (tickWith .stepReset s) := by
  obtain ⟨running, microstep, rfl⟩ := h
  have word : nextWord s = .stepReset := by
    rw [nextWord_of_row (j := 0) microstep (by simp [row])]
    simp [row]
  exact ⟨_, running, word ▸ tick_running running, rfl, rfl⟩

/-- The whole state after a tick under MI+CO (R84). -/
theorem tickWith_miCo (s : State) :
    tickWith .miCo s = { recompute false s with
      mar := s.pc, bus := s.pc, tStep := s.tStep + 1#4, controlWord := .miCo } := rfl

/-- The whole state after a tick under RO+II+CE (R85). -/
theorem tickWith_roIiCe (s : State) :
    tickWith .roIiCe s = { recompute false s with
      ir := s.memory.read s.mar, bus := s.memory.read s.mar, pc := inc8 s.pc,
      tStep := s.tStep + 1#4, controlWord := .roIiCe } := rfl

/-- The whole state after a tick under SR: the recompute and the reset counter (R101, R110). -/
theorem tickWith_stepReset (s : State) :
    tickWith .stepReset s =
      { recompute false s with tStep := 0#4, controlWord := .stepReset } := rfl

/-- The fetch and one SR have, in every element of the state, the net effect of `noOperation` with the byte
at `pc` (R160, R163). -/
theorem tickWith_stepReset_fetch (s : State) :
    tickWith .stepReset (tickWith .roIiCe (tickWith .miCo s)) =
      noOperation (s.memory.read s.pc) s := by
  rw [tickWith_miCo, tickWith_roIiCe, tickWith_stepReset]
  rfl

/-- Where the row of the byte at `pc` is SR alone, three ticks have the effect of `noOperation` (R160, R163). -/
theorem appliesWords_noOperation {op : Byte} {s : State} (h : AtBoundary s)
    (code : codeAt [op] s.pc s = true) (row : ∀ cf zf, executeRow cf zf (sel op) = [.stepReset]) :
    AppliesWords [.miCo, .roIiCe, .stepReset] s (noOperation op s) := by
  obtain rfl := (codeAt_one op s.pc s).mp code
  obtain ⟨fetch, atTwo⟩ := appliesWords_fetch h
  rw [← tickWith_stepReset_fetch s]
  exact appliesWords_append fetch (appliesWords_stepReset atTwo row)

/-- What `noOperation` leaves: A, B, `output` and memory as they were, the latches of the fetch, the flags of
the sum, and a boundary after SR (R160, R163). -/
theorem noOperation_effect (op : Byte) {s : State} (h : AtBoundary s) :
    RegistersHold s.regA s.regB s.output (noOperation op s) ∧ SameMemory s (noOperation op s) ∧
      LatchesHold op s.pc op (s.pc + 1#8) (noOperation op s) ∧
      FlagsOf (add8 s.regA s.regB) (noOperation op s) ∧ ClosedBy .stepReset (noOperation op s) := by
  obtain ⟨running, -⟩ := h
  exact ⟨⟨rfl, rfl, rfl⟩, fun _ => rfl, ⟨rfl, rfl, rfl, rfl⟩, ⟨rfl, rfl, rfl⟩, ⟨running, rfl⟩, rfl⟩

/-- NOP's row is SR alone, whatever the low nibble of its opcode byte (R65, R160). -/
theorem executeRow_nop (x : Nibble) (cf zf : Bool) :
    executeRow cf zf (sel (0x0#4 ++ x)) = [.stepReset] := by
  rw [sel_append x (by decide)]
  rfl

/-- The meaning of NOP is `noOperation` with its own opcode byte (R160). -/
theorem exec_nop (x : Nibble) (s : State) :
    exec (.nop x) s = .next (noOperation (0x0#4 ++ x) s) := rfl

/-- Settles O38: NOP is `noOperation`, whose effect is that of the fetch and the SR of NOP's row. -/
theorem nopOnlyFetches : Obligations.NopOnlyFetches := fun x s boundary =>
  ⟨rfl, noOperation (0x0#4 ++ x) s, exec_nop x s,
    fun code => appliesWords_noOperation boundary code (executeRow_nop x),
    noOperation_effect (0x0#4 ++ x) boundary⟩

end Sys2Proof.Machine
end

section
/-! The encoding of 30_encoding.md: encode and decode undo each other (R60 to R68), and a step runs the
instruction whose bytes stand at `pc` (R52, R67). -/

namespace Sys2Proof.Machine

/-! ### The bytes of an instruction -/

/-- The encoding of an instruction is as long as its opcode byte says (R61, R68). -/
theorem encode_length (i : Instr) : (encode i).length = instrLength i.opcode := by
  cases i with
  | nop x => exact Laws.EncodedLength.nop x
  | lda x a => exact Laws.EncodedLength.lda x a
  | ldi x k => exact Laws.EncodedLength.ldi x k
  | ldb x a => exact Laws.EncodedLength.ldb x a
  | lbi x k => exact Laws.EncodedLength.lbi x k
  | add x a => exact Laws.EncodedLength.add x a
  | adi x k => exact Laws.EncodedLength.adi x k
  | sub x a => exact Laws.EncodedLength.sub x a
  | sbi x k => exact Laws.EncodedLength.sbi x k
  | sta x a => exact Laws.EncodedLength.sta x a
  | jmp x t => exact Laws.EncodedLength.jmp x t
  | cmp x a => exact Laws.EncodedLength.cmp x a
  | cpi x k => exact Laws.EncodedLength.cpi x k
  | bnz x t => exact Laws.EncodedLength.bnz x t
  | jz x t => exact Laws.EncodedLength.jz x t
  | jc t => exact Laws.EncodedLength.jc t
  | inc a => exact Laws.EncodedLength.inc a
  | dec a => exact Laws.EncodedLength.dec a
  | out => exact Laws.EncodedLength.out
  | hlt => exact Laws.EncodedLength.hlt
  | unassignedF4 => exact Laws.EncodedLength.unassignedF4
  | unassignedF5 => exact Laws.EncodedLength.unassignedF5
  | unassignedF6 => exact Laws.EncodedLength.unassignedF6
  | unassignedF7 => exact Laws.EncodedLength.unassignedF7
  | unassignedF8 => exact Laws.EncodedLength.unassignedF8
  | unassignedF9 => exact Laws.EncodedLength.unassignedF9
  | unassignedFA => exact Laws.EncodedLength.unassignedFA
  | unassignedFB => exact Laws.EncodedLength.unassignedFB
  | unassignedFC => exact Laws.EncodedLength.unassignedFC
  | unassignedFD => exact Laws.EncodedLength.unassignedFD
  | unassignedFE => exact Laws.EncodedLength.unassignedFE

/-- A one-byte encoding is the opcode byte without an operand (R61). -/
theorem operand_of_length_one {i : Instr} (h : instrLength i.opcode = 1) : i.operand = none := by
  rw [← encode_length, encode, List.length_cons] at h
  simpa using h

/-- A longer encoding has one operand byte (R61). -/
theorem operand_of_length_two {i : Instr} (h : instrLength i.opcode ≠ 1) :
    ∃ d, i.operand = some d := by
  rw [← encode_length, encode, List.length_cons] at h
  cases operand : i.operand with
  | none => simp [operand] at h
  | some d => exact ⟨d, rfl⟩

/-- The bits that the decoder branches on are those of the high nibble (R60). -/
theorem getLsbD_opcodeByte_high (op x : Nibble) :
    (opcodeByte op x).getLsbD 7 = op.getLsbD 3 ∧ (opcodeByte op x).getLsbD 6 = op.getLsbD 2 ∧
      (opcodeByte op x).getLsbD 5 = op.getLsbD 1 ∧ (opcodeByte op x).getLsbD 4 = op.getLsbD 0 := by
  revert op x; decide

/-- Decoding the opcode byte of an instruction and its operand byte, or any byte where it has none, gives
the instruction (R64 to R67). -/
theorem decodePair_opcode (i : Instr) (d : Byte) :
    decodePair i.opcode (i.operand.getD d) = i := by
  cases i with
  | nop x | lda x a | ldi x k | ldb x a | lbi x k | add x a | adi x k | sub x a | sbi x k | sta x a
  | jmp x t | cmp x a | cpi x k | bnz x t | jz x t =>
    simp only [Instr.opcode, decodePair, getLsbD_opcodeByte_high, lowNibble_opcodeByte]
    rfl
  | jc t | inc a | dec a => simp [Instr.opcode, Instr.operand, decodePair, decodeExtended]
  | out | hlt | unassignedF4 | unassignedF5 | unassignedF6 | unassignedF7
  | unassignedF8 | unassignedF9 | unassignedFA | unassignedFB | unassignedFC | unassignedFD
  | unassignedFE => rfl

/-- Settles O19: the opcode byte fixes the length, and the one or two bytes decode to the instruction. -/
theorem decodeOfEncodeIsTheInstruction : Obligations.DecodeOfEncodeIsTheInstruction := by
  intro i rest
  have decoded := decodePair_opcode i 0x00#8
  by_cases length : instrLength i.opcode = 1
  · have operand := operand_of_length_one length
    rw [operand, Option.getD_none] at decoded
    rw [encode, operand]
    exact (decode_one length rest).trans (by rw [decoded])
  · obtain ⟨d, operand⟩ := operand_of_length_two length
    rw [operand, Option.getD_some] at decoded
    rw [encode, operand]
    exact (decode_two length d rest).trans (by rw [decoded])

/-- A one-byte instruction ignores the byte after it (R61, R68). -/
theorem decodePair_of_length_one {op : Byte} (h : instrLength op = 1) (d e : Byte) :
    decodePair op d = decodePair op e := by
  have opcode : (decodePair op e).opcode = op := opcode_decodePair op e
  have operand : (decodePair op e).operand = none := operand_of_length_one (opcode.symm ▸ h)
  have decoded := decodePair_opcode (decodePair op e) d
  rwa [opcode, operand, Option.getD_none] at decoded

/-- Settles O21: the length of the opcode byte decides between the decoder's two branches. -/
theorem everyOpcodeByteDecodes : Obligations.EveryOpcodeByteDecodes := by
  intro op d rest
  by_cases length : instrLength op = 1
  · rw [decode_one length, decodePair_of_length_one length 0x00#8 d, if_pos length]
  · rw [decode_two length, if_neg length]

/-! ### The bytes that the decoder takes -/

/-- The operand of an extended instruction, where it has one, is the byte after its opcode (R62, R64). -/
theorem operand_decodeExtended (d e : Byte) (b₃ b₂ b₁ b₀ : Bool) :
    (decodeExtended d b₃ b₂ b₁ b₀).operand =
      (decodeExtended e b₃ b₂ b₁ b₀).operand.map fun _ => d := by
  unfold decodeExtended
  split <;> rfl

/-- The operand of a decoded instruction, where it has one, is the byte after its opcode (R62). -/
theorem operand_decodePair_map (op d e : Byte) :
    (decodePair op d).operand = (decodePair op e).operand.map fun _ => d := by
  unfold decodePair
  split
  case h_16 => exact operand_decodeExtended d e _ _ _ _
  all_goals rfl

/-- A byte of length one decodes to an instruction that it encodes alone (R61). -/
theorem encode_decodePair_of_length_one {op : Byte} (h : instrLength op = 1) (d : Byte) :
    encode (decodePair op d) = [op] := by
  have opcode := opcode_decodePair op d
  rw [encode, opcode, operand_of_length_one (opcode.symm ▸ h)]
  rfl

/-- Any other byte decodes, with the next, to an instruction that the two of them encode (R61, R62). -/
theorem encode_decodePair_of_length_two {op : Byte} (h : instrLength op ≠ 1) (d : Byte) :
    encode (decodePair op d) = [op, d] := by
  have opcode := opcode_decodePair op d
  obtain ⟨e, operand⟩ := operand_of_length_two (opcode.symm ▸ h)
  rw [encode, opcode, operand_decodePair_map op d d, operand]
  rfl

/-- Settles O20: what the decoder's branch takes is one byte or two, and these are the encoding. -/
theorem decodedBytesAreTheEncoding : Obligations.DecodedBytesAreTheEncoding := by
  intro bytes rest i decoded
  match bytes with
  | [] => simp [decode] at decoded
  | op :: bytes =>
    by_cases length : instrLength op = 1
    · rw [decode_one length] at decoded
      cases decoded
      rw [encode_decodePair_of_length_one length]
      rfl
    · match bytes with
      | [] => simp [decode, length] at decoded
      | d :: bytes =>
        rw [decode_two length] at decoded
        cases decoded
        rw [encode_decodePair_of_length_two length]
        rfl

/-- Settles O22: the decoder evaluated at the eleven words. -/
theorem tableWordsDecodeAsListed : Obligations.TableWordsDecodeAsListed := by
  unfold Obligations.TableWordsDecodeAsListed
  decide

/-! ### The instruction that a step runs -/

/-- Two bytes decode to the instruction that the machine fetches from them (R52, R67). -/
theorem fetchInstr_of_decode {s : State} {i : Instr} {rest : List Byte}
    (h : decode [s.memory.read s.pc, s.memory.read (s.pc + 1#8)] = .ok (i, rest)) :
    fetchInstr s = i := by
  rw [everyOpcodeByteDecodes] at h
  obtain ⟨decoded, -⟩ := Prod.mk.inj (Except.ok.inj h)
  exact decoded

/-- Settles O24: at a boundary a step runs the instruction fetched, and a halted machine stays. -/
theorem stepRunsTheDecodedInstruction : Obligations.StepRunsTheDecodedInstruction := by
  refine ⟨fun s i rest boundary decoded => ?_, fun s => step_halted⟩
  obtain ⟨running, atZero⟩ := boundary
  rw [step_boundary running atZero, fetchInstr_of_decode decoded]

/-- Where the bytes of an instruction stand at `pc`, its opcode byte is there, and its operand, if it has
one, at the address after it (R47). -/
theorem codeAt_encode {i : Instr} {s : State} (code : codeAt (encode i) s.pc s = true) :
    s.memory.read s.pc = i.opcode ∧ i.operand.getD (s.memory.read (inc8 s.pc)) =
      s.memory.read (inc8 s.pc) := by
  rw [encode] at code
  cases operand : i.operand with
  | none =>
    rw [operand, Option.toList_none, codeAt_one] at code
    exact ⟨code, rfl⟩
  | some d =>
    rw [operand, Option.toList_some, codeAt_two] at code
    obtain ⟨opcode, next⟩ := code
    exact ⟨opcode, next.symm⟩

/-- Where the bytes of an instruction stand at `pc` the machine fetches that instruction (R52, R67). -/
theorem fetchInstr_of_codeAt {i : Instr} {s : State} (code : codeAt (encode i) s.pc s = true) :
    fetchInstr s = i := by
  obtain ⟨opcode, operand⟩ := codeAt_encode code
  rw [fetchInstr, fetchBytes, opcode, ← operand, decodePair_opcode]

/-- The bytes of the instruction that the machine fetches stand at `pc` (R47, R52). -/
theorem codeAt_encode_fetchInstr (s : State) : codeAt (encode (fetchInstr s)) s.pc s = true := by
  by_cases length : instrLength (s.memory.read s.pc) = 1
  · rw [fetchInstr, fetchBytes, encode_decodePair_of_length_one length, codeAt_one]
  · rw [fetchInstr, fetchBytes, encode_decodePair_of_length_two length, codeAt_two]
    exact ⟨rfl, rfl⟩

/-- At a boundary with the bytes of an instruction at `pc` a step is that instruction's cycle (R52). -/
theorem step_of_codeAt {i : Instr} {s : State} (h : AtBoundary s)
    (code : codeAt (encode i) s.pc s = true) : step s = exec i s := by
  obtain ⟨running, atZero⟩ := h
  rw [step_boundary running atZero, fetchInstr_of_codeAt code]

end Sys2Proof.Machine
end

section
/-! The invariants: the microstep stays inside the selected row (R97), and every step leaves the machine at a
boundary or halted (R95, R114, R162). -/

namespace Sys2Proof.Machine

/-! ### The microstep counter -/

/-- Past its row a selector's word is SR (R90). -/
theorem nextWord_past_row {s : State} {j : Nat} (microstep : s.tStep.toNat = j + 2)
    (pastRow : executeSteps (sel s.ir) ≤ j) : nextWord s = .stepReset := by
  rw [← executeRow_length s.cf s.zf] at pastRow
  rw [nextWord, decodeControl, rom, microstep]
  exact List.getD_eq_default _ _ pastRow

/-- The word of an execute microstep inside the row keeps `ir`, and resets `t_step` at the row's last
microstep only (R88, R96). -/
theorem nextWord_inside_row {s : State} {j : Nat} (microstep : s.tStep.toNat = j + 2)
    (inRow : j < executeSteps (sel s.ir)) :
    (nextWord s).ii = false ∧ (nextWord s).sr = decide (j + 1 = executeSteps (sel s.ir)) := by
  rw [← executeRow_length s.cf s.zf] at inRow
  rw [nextWord_of_row microstep inRow]
  exact ⟨executeRow_ii _ _ _ _ (List.getElem_mem inRow), executeRow_sr _ _ _ ⟨j, inRow⟩⟩

/-- No row goes on past microstep 7: there and later the word resets `t_step` (R90, R97). -/
theorem nextWord_sr_of_seven_le {s : State} (h : 7 ≤ s.tStep.toNat) : (nextWord s).sr = true := by
  obtain ⟨j, microstep⟩ : ∃ j, s.tStep.toNat = j + 2 := ⟨s.tStep.toNat - 2, by omega⟩
  have bound := (executeSteps_bounds (sel s.ir)).2
  rcases Nat.lt_or_ge j (executeSteps (sel s.ir)) with inRow | pastRow
  · obtain ⟨-, sr⟩ := nextWord_inside_row microstep inRow
    rw [sr, decide_eq_true_iff]
    omega
  · rw [nextWord_past_row microstep pastRow]
    rfl

/-- A tick that does not reset `t_step` counts it up, without wrapping (R80, R90). -/
theorem tStep_of_not_sr {s : State} (h : (nextWord s).sr = false) :
    s.tStep.toNat < 7 ∧ (tickWith (nextWord s) s).tStep.toNat = s.tStep.toNat + 1 := by
  have below : s.tStep.toNat < 7 := by
    by_contra atSeven
    simp [nextWord_sr_of_seven_le (not_lt.mp atSeven)] at h
  refine ⟨below, ?_⟩
  rw [tickWith_tStep, h, if_neg Bool.false_ne_true]
  bv_omega

/-- A tick that resets `t_step` leaves it at 0 (R110). -/
theorem tStep_of_sr {s : State} (h : (nextWord s).sr = true) :
    (tickWith (nextWord s) s).tStep = 0#4 := by
  rw [tickWith_tStep, h, if_pos rfl]

/-- A tick of a running machine leaves `t_step` at most 7 (R97). -/
theorem tStep_tickWith_le (s : State) : (tickWith (nextWord s) s).tStep.toNat ≤ 7 := by
  cases sr : (nextWord s).sr with
  | true => rw [tStep_of_sr sr]; decide
  | false =>
    obtain ⟨below, counts⟩ := tStep_of_not_sr sr
    omega

/-- Every tick keeps the canonical form of memory (R30). -/
theorem wf_of_tick {s t : State} (ht : tick s = .next t) (h : s.memory.wf = true) :
    t.memory.wf = true := by
  rcases tick_next_iff.mp ht with ⟨-, rfl⟩ | ⟨-, rfl⟩
  · exact h
  · exact tickWith_wf _ s h

/-- Settles O14: a running machine's tick leaves `t_step` at most 7, a halted machine's changes nothing. -/
theorem tickKeepsTheStateBounds : Obligations.TickKeepsTheStateBounds := by
  refine ⟨⟨by decide, State.reset_memory_wf⟩, fun s t ht => ?_⟩
  have canonical : s.memory.wf = true → t.memory.wf = true := wf_of_tick ht
  rcases tick_next_iff.mp ht with ⟨halted, rfl⟩ | ⟨running, rfl⟩
  · exact ⟨id, id, id, fun h => ⟨h, rfl⟩⟩
  · have bound := tStep_tickWith_le s
    exact ⟨fun _ => bound.trans (by decide), fun _ => bound, canonical, fun h => by simp [running] at h⟩

/-! ### The sequencer's invariant -/

/-- HLT stands at microstep 2 of its own row and nowhere else (R171). -/
theorem halting_microstep_of_rom_hlt {cf zf : Bool} {selector : Selector} {t : Microstep}
    (h : (rom cf zf selector t).hlt = true) : selector = 0x1F#5 ∧ t = 2#4 := by
  by_cases halt : selector = 0x1F#5
  · subst halt
    refine ⟨rfl, ?_⟩
    revert cf zf t; decide
  · have noHalt : (rom cf zf selector t).hlt = false :=
      rom_of_forall_row (executeRow_hlt_of_other halt cf zf) rfl rfl rfl t
    simp [noHalt] at h

/-- A tick keeps the microstep inside the row that `ir` selects (R97). -/
theorem inRow_tickWith {s : State} (h : s.tStep.toNat < 2 + executeSteps (sel s.ir)) :
    (tickWith (nextWord s) s).tStep.toNat <
      2 + executeSteps (sel (tickWith (nextWord s) s).ir) := by
  have someStep := (executeSteps_bounds (sel (tickWith (nextWord s) s).ir)).1
  cases sr : (nextWord s).sr with
  | true => rw [tStep_of_sr sr]; exact Nat.add_pos_left Nat.two_pos _
  | false =>
    obtain ⟨-, counts⟩ := tStep_of_not_sr sr
    rw [counts]
    match microstep : s.tStep.toNat with
    | 0 => omega
    | 1 => omega
    | j + 2 =>
      obtain ⟨ii, last⟩ := nextWord_inside_row microstep (by omega)
      have notLast : j + 1 ≠ executeSteps (sel s.ir) := of_decide_eq_false (last.symm.trans sr)
      rw [tickWith_ir, ii, if_neg Bool.false_ne_true]
      omega

/-- The tick that halts a running machine leaves the trace of HLT's microstep 2 (R113, R162). -/
theorem halting_trace {s : State} (running : s.hlt = false)
    (halts : (tickWith (nextWord s) s).hlt = true) :
    (tickWith (nextWord s) s).tStep = 3#4 ∧ sel (tickWith (nextWord s) s).ir = 0x1F#5 ∧
      (tickWith (nextWord s) s).controlWord = .halt := by
  rw [tickWith_hlt_of_running _ running] at halts
  obtain ⟨halt, atTwo⟩ := halting_microstep_of_rom_hlt halts
  rw [nextWord_eq_halt_of_hlt halts]
  refine ⟨?_, halt, rfl⟩
  rw [tickWith_tStep, atTwo]
  rfl

/-- Settles O15: the tick's word is in the row and resets `t_step` at its end, and only HLT's microstep 2
halts. -/
theorem tickKeepsSequencerInvariant : Obligations.TickKeepsSequencerInvariant := by
  intro s t inv ht
  rcases tick_next_iff.mp ht with ⟨-, rfl⟩ | ⟨running, rfl⟩
  · exact inv
  · exact {
      canonical := tickWith_wf _ s inv.canonical
      inRow := inRow_tickWith inv.inRow
      halted := halting_trace running
      legalWord := nextWord_legal s }

/-! ### What a cycle ends with -/

/-- The word of an instruction's last microstep, which its cycle leaves in the snapshot (R113, R171). -/
def lastWord : Instr → ControlWord
  | .cmp _ _ | .cpi _ _ => .srSu
  | .hlt => .halt
  | _ => .stepReset

/-- The last word of every instruction is legal (R172). -/
theorem lastWord_legal (i : Instr) : (lastWord i).legal = true := by
  unfold lastWord
  split <;> rfl

/-- Every instruction but HLT ends its cycle with its last word and its own opcode byte in `ir`, on a state
that it has not halted and whose memory it has kept canonical (R114, R120). -/
theorem exec_eq_endCycle {i : Instr} (notHalt : i ≠ .hlt) (s : State) :
    ∃ (mar bus pc : Byte) (u : State),
      exec i s = .next (endCycle (lastWord i) i.opcode mar bus pc u) ∧ u.hlt = s.hlt ∧
        (s.memory.wf = true → u.memory.wf = true) := by
  cases i with
  | sta x a | inc a | dec a => exact ⟨_, _, _, _, rfl, rfl, Memory.wf_write _ _ _⟩
  | hlt => exact absurd rfl notHalt
  | nop x | lda x a | ldi x k | ldb x a | lbi x k | add x a | adi x k | sub x a | sbi x k | jmp x t
  | cmp x a | cpi x k | bnz x t | jz x t | jc t | out | unassignedF4 | unassignedF5 | unassignedF6
  | unassignedF7 | unassignedF8 | unassignedF9 | unassignedFA | unassignedFB | unassignedFC
  | unassignedFD | unassignedFE => exact ⟨_, _, _, _, rfl, rfl, id⟩

/-- HLT halts, with `t_step` 3, 0xFF in `ir` and HLT in the snapshot (R162). -/
theorem exec_hlt (s : State) :
    exec .hlt s = .next { endCycle .halt 0xFF#8 s.pc 0xFF#8 (inc8 s.pc) s with
      hlt := true, tStep := 3#4 } := rfl

/-- The end of a cycle of a running machine with canonical memory meets the machine's invariant. -/
theorem machineInv_endCycle {w : ControlWord} {u : State} (op mar bus pc : Byte)
    (running : u.hlt = false) (canonical : u.memory.wf = true) (legal : w.legal = true) :
    MachineInv (endCycle w op mar bus pc u) where
  canonical := canonical
  boundary := fun _ => rfl
  halted := fun halted => by simp [running] at halted
  flags := ⟨rfl, rfl, rfl⟩
  legalWord := legal

/-- What HLT leaves meets the machine's invariant. -/
theorem machineInv_halted {s : State} (canonical : s.memory.wf = true) :
    MachineInv { endCycle .halt 0xFF#8 s.pc 0xFF#8 (inc8 s.pc) s with
      hlt := true, tStep := 3#4 } where
  canonical := canonical
  boundary := nofun
  halted := fun _ => ⟨rfl, rfl, rfl⟩
  flags := ⟨rfl, rfl, rfl⟩
  legalWord := rfl

/-- A whole cycle of a running machine with canonical memory establishes the machine's invariant. -/
theorem machineInv_of_exec {i : Instr} {s t : State} (running : s.hlt = false)
    (canonical : s.memory.wf = true) (ht : exec i s = .next t) : MachineInv t := by
  by_cases halt : i = .hlt
  · subst halt
    rw [exec_hlt] at ht
    cases ht
    exact machineInv_halted canonical
  · obtain ⟨mar, bus, pc, u, cycle, hlt, wf⟩ := exec_eq_endCycle halt s
    rw [cycle] at ht
    cases ht
    exact machineInv_endCycle _ _ _ _ (hlt.trans running) (wf canonical) (lastWord_legal i)

/-- Settles O16: the invariant puts a running machine at a boundary, so that its step is a whole cycle. -/
theorem stepKeepsMachineInvariant : Obligations.StepKeepsMachineInvariant := by
  intro s t inv ht
  cases h : s.hlt with
  | true =>
    rw [step_halted h] at ht
    cases ht
    exact inv
  | false =>
    rw [step_boundary h (inv.boundary h)] at ht
    exact machineInv_of_exec h inv.canonical ht

/-- Settles O17: at reset memory is the empty list of cells, the machine runs at a boundary, and the flags
are those of 0 + 0. -/
theorem resetMeetsBothInvariants : Obligations.ResetMeetsBothInvariants :=
  ⟨⟨rfl, fun _ => rfl, nofun, ⟨rfl, rfl, rfl⟩, rfl⟩, ⟨rfl, by decide, nofun, rfl⟩⟩

/-- Settles O23: every row is legal, and so are the fetch words and the filling SR. -/
theorem everyRomWordIsLegal : Obligations.EveryRomWordIsLegal := rom_legal

end Sys2Proof.Machine
end

section
/-! The representation of memory and the program load of 20_memory.md (R17, R53), and the latches and flags
of 41_datapath_apply.md (R101, R106, R107). -/

namespace Sys2Proof.Machine

/-! ### Canonical memories -/

/-- What the canonical form says of a first cell: its address, its byte and the cells after it. -/
theorem Memory.wfFrom_cons {lo k : Nat} {v : Byte} {rest : Memory}
    (h : Memory.wfFrom lo ((k, v) :: rest) = true) :
    lo ≤ k ∧ k < 256 ∧ v ≠ Memory.unlisted ∧ Memory.wfFrom (k + 1) rest = true := by
  simp only [Memory.wfFrom, Bool.and_eq_true, decide_eq_true_eq, bne_iff_ne] at h
  obtain ⟨⟨⟨above, inside⟩, listed⟩, restWf⟩ := h
  exact ⟨above, inside, listed, restWf⟩

/-- The address of the first cell reads as its byte. -/
theorem Memory.lookup_first (k : Nat) (v : Byte) (rest : Memory) :
    Memory.lookup ((k, v) :: rest) k = v := if_pos rfl

/-- Every other address reads as the cells after the first say. -/
theorem Memory.lookup_rest {k n : Nat} (v : Byte) (rest : Memory) (h : k ≠ n) :
    Memory.lookup ((k, v) :: rest) n = Memory.lookup rest n := if_neg h

/-- An address below every cell of a canonical memory reads as unlisted (R17). -/
theorem Memory.lookup_of_lt {lo n : Nat} {m : Memory} (h : Memory.wfFrom lo m = true) (below : n < lo) :
    Memory.lookup m n = Memory.unlisted := by
  induction m generalizing lo with
  | nil => rfl
  | cons c rest ih =>
    obtain ⟨k, v⟩ := c
    obtain ⟨above, -, -, restWf⟩ := Memory.wfFrom_cons h
    rw [Memory.lookup_rest v rest (by omega), ih restWf (by omega)]

/-- Where a memory has a first cell, no memory that reads alike starts later. -/
theorem Memory.not_lt_first {lo lo' k k' : Nat} {v v' : Byte} {rest rest' : Memory}
    (h : Memory.wfFrom lo ((k, v) :: rest) = true) (h' : Memory.wfFrom lo' ((k', v') :: rest') = true)
    (alike : Memory.lookup ((k, v) :: rest) k = Memory.lookup ((k', v') :: rest') k) : ¬ k < k' := by
  intro before
  obtain ⟨-, -, listed, -⟩ := Memory.wfFrom_cons h
  obtain ⟨-, -, -, restWf'⟩ := Memory.wfFrom_cons h'
  rw [Memory.lookup_first, Memory.lookup_rest v' rest' before.ne',
    Memory.lookup_of_lt restWf' (by omega)] at alike
  exact listed alike

/-- Canonical lists of cells that read alike at every address are equal. -/
theorem Memory.eq_of_lookup_eq {lo lo' : Nat} {m m' : Memory} (h : Memory.wfFrom lo m = true)
    (h' : Memory.wfFrom lo' m' = true)
    (alike : ∀ n < 256, Memory.lookup m n = Memory.lookup m' n) : m = m' := by
  induction m generalizing lo lo' m' with
  | nil =>
    match m' with
    | [] => rfl
    | (k, v) :: rest =>
      obtain ⟨-, inside, listed, -⟩ := Memory.wfFrom_cons h'
      exact absurd ((alike k inside).trans (Memory.lookup_first k v rest)).symm listed
  | cons c rest ih =>
    obtain ⟨k, v⟩ := c
    obtain ⟨-, inside, listed, restWf⟩ := Memory.wfFrom_cons h
    match m' with
    | [] => exact absurd ((Memory.lookup_first k v rest).symm.trans (alike k inside)) listed
    | (k', v') :: rest' =>
      obtain ⟨-, inside', -, restWf'⟩ := Memory.wfFrom_cons h'
      obtain rfl : k = k' := Nat.le_antisymm
        (not_lt.mp (Memory.not_lt_first h' h (alike k' inside').symm))
        (not_lt.mp (Memory.not_lt_first h h' (alike k inside)))
      have sameByte : v = v' := by simpa only [Memory.lookup_first] using alike k inside
      have sameRest : rest = rest' := by
        refine ih restWf restWf' fun n hn => ?_
        by_cases first : k = n
        · rw [Memory.lookup_of_lt restWf (by omega), Memory.lookup_of_lt restWf' (by omega)]
        · simpa only [Memory.lookup_rest _ _ first] using alike n hn
      rw [sameByte, sameRest]

/-- Settles O18: by induction on the cells, whose first addresses must agree. -/
theorem canonicalMemoriesThatReadAlikeAreEqual :
    Obligations.CanonicalMemoriesThatReadAlikeAreEqual := by
  intro m m' h h' alike
  refine Memory.eq_of_lookup_eq h h' fun n hn => ?_
  have address : (BitVec.ofNat 8 n).toNat = n := Nat.mod_eq_of_lt hn
  have read := alike (BitVec.ofNat 8 n)
  rwa [Memory.read, Memory.read, address] at read

/-! ### The program load -/

/-- A bulk write leaves alone the bytes outside its range (R53). -/
theorem Memory.read_writeAll_outside (m : Memory) {n : Nat} {image : List Byte} {b : Byte}
    (fits : n + image.length ≤ 256) (outside : b.toNat < n ∨ n + image.length ≤ b.toNat) :
    (Memory.writeAll m n image).read b = m.read b := by
  induction image generalizing m n with
  | nil => rfl
  | cons v rest ih =>
    rw [List.length_cons] at fits outside
    have elsewhere : b ≠ BitVec.ofNat 8 n := by
      rintro rfl
      rw [BitVec.toNat_ofNat, Nat.mod_eq_of_lt (by omega)] at outside
      omega
    calc (Memory.writeAll m n (v :: rest)).read b
        = (m.write (BitVec.ofNat 8 n) v).read b := ih _ (by omega) (by omega)
      _ = m.read b := Memory.read_write_other m v elsewhere

/-- A bulk write puts byte `i` at the address `i` after its first (R53). -/
theorem Memory.read_writeAll_inside (m : Memory) {n i : Nat} {image : List Byte}
    (fits : n + image.length ≤ 256) (h : i < image.length) :
    (Memory.writeAll m n image).read (BitVec.ofNat 8 (n + i)) = image[i] := by
  induction image generalizing m n i with
  | nil => simp at h
  | cons v rest ih =>
    rw [List.length_cons] at fits h
    match i with
    | 0 =>
      have address : (BitVec.ofNat 8 n).toNat = n := Nat.mod_eq_of_lt (by omega)
      calc (Memory.writeAll m n (v :: rest)).read (BitVec.ofNat 8 n)
          = (m.write (BitVec.ofNat 8 n) v).read (BitVec.ofNat 8 n) :=
            Memory.read_writeAll_outside (image := rest) _ (by omega) (.inl (by omega))
        _ = v := Memory.read_write_same m _ v
    | j + 1 =>
      rw [← Nat.add_assoc, Nat.add_right_comm]
      exact ih _ (by omega) (by omega)

/-- The word of no microstep is zero: every row and the fetch assert something (R84, R85, R171). -/
theorem nextWord_ne_zero (s : State) : nextWord s ≠ .zero := by
  have row : ∀ (cf zf : Bool) (selector : Selector),
      ∀ w ∈ executeRow cf zf selector, w ≠ ControlWord.zero := by decide
  exact rom_of_forall_row (P := (· ≠ .zero)) (row s.cf s.zf (sel s.ir)) (by decide) (by decide)
    (by decide) s.tStep

/-- A machine that has ticked is not the one at reset: its snapshot is not zero (R53, R113). -/
theorem ne_reset_of_tick {s t : State} (running : s.hlt = false) (ht : tick s = .next t) :
    t ≠ State.reset := by
  rintro rfl
  exact nextWord_ne_zero s (controlWord_of_tick_running running ht).symm

/-- An image fits when it has at most 256 bytes (R53). -/
theorem imageFits_iff (image : List Byte) : imageFits image = true ↔ image.length ≤ 256 :=
  decide_eq_true_iff

/-- Settles O2: the bulk write byte by byte, and the two checks that refuse a load. -/
theorem loadProgramPlacesTheImage : Obligations.LoadProgramPlacesTheImage := by
  refine ⟨fun image fits => ?_, fun image s long => ?_, fun image s t fits running ht => ?_⟩
  · refine ⟨_, loadProgram_next_iff.mpr ⟨(imageFits_iff image).mpr fits, rfl, rfl⟩,
      fun i h => ?_, fun b past => ?_, rfl⟩
    · have read := Memory.read_writeAll_inside State.reset.memory (n := 0) (by omega) h
      rwa [Nat.zero_add] at read
    · exact Memory.read_writeAll_outside _ (by omega) (.inr (by omega))
  · have refused : ¬ imageFits image = true := by rw [imageFits_iff]; omega
    rw [loadProgram, if_neg refused]
  · rw [loadProgram, if_pos ((imageFits_iff image).mpr fits), if_neg (ne_reset_of_tick running ht)]

/-! ### The latches and the flags -/

/-- The cells of memory after a tick: a word with RI writes at the `mar` that the tick leaves (R107). -/
theorem tickWith_memory (w : ControlWord) (s : State) :
    (tickWith w s).memory =
      if w.ri then s.memory.write (tickWith w s).mar (tickWith w s).bus else s.memory := rfl

/-- Settles O5: each latch by its own line, and memory by what a read gives after a write. -/
theorem assertedLatchesTakeTheBus : Obligations.AssertedLatchesTakeTheBus := by
  intro w s
  refine ⟨tickWith_mar w s, tickWith_ir w s, tickWith_regA w s, tickWith_regB w s,
    tickWith_output w s, fun b => ?_⟩
  rw [tickWith_memory]
  cases w.ri with
  | false => simp
  | true => simp [Memory.read_write]

/-- Nothing that a cycle recomputes or latches before reading it can reach its result: the ALU output, the
flags, `ir`, the snapshot, `mar` and `bus` (R114). -/
theorem exec_of_hidden_latches (i : Instr) (s : State) (aluOut ir mar bus : Byte) (cf zf : Bool)
    (w : ControlWord) :
    exec i { s with
      aluOut := aluOut, cf := cf, zf := zf, ir := ir, controlWord := w, mar := mar, bus := bus } =
      exec i s := by
  cases i <;> rfl

/-- Settles O10: step 1 of the tick overwrites the flags, and so does the end of every cycle. -/
theorem flagsAreNeverData : Obligations.FlagsAreNeverData :=
  ⟨flagsOf_tickWith, fun _ _ _ _ => rfl, fun i s cf zf =>
    exec_of_hidden_latches i s s.aluOut s.ir s.mar s.bus cf zf s.controlWord⟩

/-- Two states that agree in all but the hidden latches are one another with those replaced. -/
theorem eq_of_visible_eq {s s' : State} (regA : s.regA = s'.regA) (regB : s.regB = s'.regB)
    (pc : s.pc = s'.pc) (output : s.output = s'.output) (memory : s.memory = s'.memory)
    (hlt : s.hlt = s'.hlt) (tStep : s.tStep = s'.tStep) :
    s = { s' with
      aluOut := s.aluOut, cf := s.cf, zf := s.zf, ir := s.ir, controlWord := s.controlWord,
      mar := s.mar, bus := s.bus } := by
  cases s; cases s'
  subst regA regB pc output memory hlt tStep
  rfl

/-- Settles O29: the two machines fetch one instruction, whose cycle no hidden latch reaches. -/
theorem hiddenLatchesDoNotMatter : Obligations.HiddenLatchesDoNotMatter := by
  intro s s' boundary boundary' regA regB pc output memory
  obtain ⟨running, atZero⟩ := boundary
  obtain ⟨running', atZero'⟩ := boundary'
  have fetched : fetchInstr s = fetchInstr s' := by simp only [fetchInstr, fetchBytes, pc, memory]
  rw [step_boundary running atZero, step_boundary running' atZero', fetched,
    eq_of_visible_eq regA regB pc output memory (running.trans running'.symm)
      (atZero.trans atZero'.symm), exec_of_hidden_latches]

end Sys2Proof.Machine
end

section
/-! The microprogram of a whole cycle: from a boundary the ticks apply the fetch words and the row of the
opcode byte at `pc`, and their net effect is the instruction's meaning (R95, R120, R171). -/

namespace Sys2Proof.Machine

/-! ### Runs of named words -/

/-- The state after one tick under each of the words. -/
def ticksWith : List ControlWord → State → State
  | [], s => s
  | w :: ws, s => ticksWith ws (tickWith w s)

/-- Ticks under two lists of words are ticks under the first and then under the second. -/
theorem ticksWith_append (ws vs : List ControlWord) (s : State) :
    ticksWith (ws ++ vs) s = ticksWith vs (ticksWith ws s) := by
  induction ws generalizing s with
  | nil => rfl
  | cons w ws ih => exact ih (tickWith w s)

/-- A run of named words leads to the state after ticks under them. -/
theorem eq_ticksWith_of_appliesWords {ws : List ControlWord} {s t : State}
    (h : AppliesWords ws s t) : t = ticksWith ws s := by
  induction ws generalizing s with
  | nil => exact h
  | cons w ws ih =>
    obtain ⟨u, running, -, -, -⟩ := id h
    obtain ⟨rfl, rest⟩ := (appliesWords_cons w ws t running).mp h
    exact ih rest

/-- A run of named words can be cut in two, at the state after ticks under the first part. -/
theorem appliesWords_split {ws vs : List ControlWord} {s t : State}
    (h : AppliesWords (ws ++ vs) s t) :
    AppliesWords ws s (ticksWith ws s) ∧ AppliesWords vs (ticksWith ws s) t := by
  induction ws generalizing s with
  | nil => exact ⟨rfl, h⟩
  | cons w ws ih =>
    obtain ⟨u, running, ticks, word, rest⟩ := h
    obtain rfl : u = tickWith w s := by
      rw [tick_running running] at ticks
      cases ticks
      rw [← word, tickWith_controlWord]
    obtain ⟨before, after⟩ := ih rest
    exact ⟨⟨_, running, ticks, word, before⟩, after⟩

/-! ### The execute row and the flags -/

/-- The flags stand so that microstep `j` of a row is the one that the row has under `cf` and `zf`: the gate
at the row's second microstep reads the flags, which its first recomputes from A and B (R91, R92). -/
def GateReads (cf zf : Bool) : Nat → State → Prop
  | 0, s => branchCarry s = cf ∧ branchZero s = zf
  | 1, s => s.cf = cf ∧ s.zf = zf
  | _ + 2, _ => True

/-- A row's words other than its second do not depend on the flags (R91, R94). -/
theorem executeRow_of_other_flags (cf zf : Bool) (selector : Selector) (j : Fin 6) (h : j.val ≠ 1) :
    (executeRow cf zf selector)[j.val]? = (executeRow false false selector)[j.val]? := by
  revert cf zf selector j; decide

/-- A row that has a second microstep does not subtract at its first (R92, R171). -/
theorem executeRow_first_su (cf zf : Bool) (selector : Selector) (w v : ControlWord)
    (ws : List ControlWord) (h : executeRow cf zf selector = w :: v :: ws) : w.su = false := by
  have first : ∀ (cf zf : Bool) (selector : Selector), executeSteps selector = 1 ∨
      ∀ w ∈ (executeRow cf zf selector).head?, w.su = false := by decide
  rcases first cf zf selector with one | noSu
  · rw [← executeRow_length cf zf, h] at one
    simp at one
  · exact noSu w (by rw [h]; rfl)

/-- The word of an execute microstep is the one that the row has under the flags its gate reads (R86, R92). -/
theorem nextWord_of_gateReads {op : Byte} {cf zf : Bool} {j : Nat} {s : State}
    (h : AtMicrostep op (j + 2) s) (gate : GateReads cf zf j s)
    (inRow : j < (executeRow cf zf (sel op)).length) :
    nextWord s = (executeRow cf zf (sel op))[j] := by
  obtain ⟨-, microstep, rfl⟩ := h
  have short : j < 6 := by
    have := (executeSteps_bounds (sel s.ir)).2
    rw [executeRow_length] at inRow
    omega
  have own : j < (executeRow s.cf s.zf (sel s.ir)).length := by
    rwa [executeRow_length] at inRow ⊢
  have sameWord : (executeRow s.cf s.zf (sel s.ir))[j]? = (executeRow cf zf (sel s.ir))[j]? := by
    by_cases second : j = 1
    · subst second
      obtain ⟨rfl, rfl⟩ := gate
      rfl
    · exact (executeRow_of_other_flags _ _ _ ⟨j, short⟩ second).trans
        (executeRow_of_other_flags _ _ _ ⟨j, short⟩ second).symm
  rw [nextWord_of_row microstep own]
  simpa [List.getElem?_eq_getElem, own, inRow] using sameWord

/-- A row that starts with A and B as they stand in `s` has the gate that `s` gives (R92, R154). -/
theorem gateReads_of_registers {s u : State} (regA : u.regA = s.regA) (regB : u.regB = s.regB) :
    GateReads (branchCarry s) (branchZero s) 0 u := by
  simp [GateReads, branchCarry, branchZero, regA, regB]

/-- The tick at a row's first microstep leaves the flags that the gate at its second reads (R92). -/
theorem gateReads_succ {cf zf : Bool} {j : Nat} {s : State} {w : ControlWord}
    (gate : GateReads cf zf j s) (add : j = 0 → w.su = false) :
    GateReads cf zf (j + 1) (tickWith w s) := by
  match j with
  | 0 =>
    obtain ⟨rfl, rfl⟩ := gate
    have carry := tickWith_cf w s
    have zero := tickWith_zf w s
    rw [add rfl] at carry zero
    exact ⟨carry, zero⟩
  | _ + 1 => trivial

/-- From microstep `j` of a row to its end the ticks apply the words that the row has there. -/
theorem appliesWords_row {op : Byte} {cf zf : Bool} {j : Nat} {s : State} {ws : List ControlWord}
    (notHalt : op ≠ 0xFF#8) (h : AtMicrostep op (j + 2) s) (gate : GateReads cf zf j s)
    (row : (executeRow cf zf (sel op)).drop j = ws) : AppliesWords ws s (ticksWith ws s) := by
  induction ws generalizing j s with
  | nil => rfl
  | cons w ws ih =>
    have inRow : j < (executeRow cf zf (sel op)).length := by
      by_contra pastRow
      simp [List.drop_eq_nil_of_le (not_lt.mp pastRow)] at row
    rw [List.drop_eq_getElem_cons inRow] at row
    obtain ⟨word, rest⟩ := List.cons.inj row
    have next : nextWord s = w := (nextWord_of_gateReads h gate inRow).trans word
    have running : s.hlt = false := h.1
    refine (appliesWords_cons w ws _ running).mpr ⟨next, ?_⟩
    rw [next]
    match ws with
    | [] => rfl
    | v :: vs =>
      have notLast : j + 1 < executeSteps (sel op) := by
        by_contra last
        rw [← executeRow_length cf zf, not_lt] at last
        simp [List.drop_eq_nil_of_le last] at rest
      obtain ⟨t, ticks, atNext⟩ := atMicrostep_succ h notHalt notLast
      rw [tick_running running, next] at ticks
      cases ticks
      refine ih atNext (gateReads_succ gate ?_) rest
      rintro rfl
      refine executeRow_first_su cf zf (sel op) w v vs ?_
      rw [← rest, ← word]
      exact List.drop_eq_getElem_cons inRow

/-! ### The whole cycle -/

/-- The words of an instruction's cycle from a boundary at `s`: the fetch and its row, with the gate that the
flags of A + B give (R84, R85, R92, R154). -/
def cycleWords (i : Instr) (s : State) : List ControlWord :=
  [.miCo, .roIiCe] ++ executeRow (branchCarry s) (branchZero s) (sel i.opcode)

/-- From a boundary with an instruction other than HLT at `pc` the ticks apply the words of its cycle. -/
theorem appliesWords_cycle {i : Instr} {s : State} (h : AtBoundary s)
    (code : codeAt (encode i) s.pc s = true) (notHalt : i.opcode ≠ 0xFF#8) :
    AppliesWords (cycleWords i s) s (ticksWith (cycleWords i s) s) := by
  obtain ⟨opcode, -⟩ := codeAt_encode code
  obtain ⟨fetch, atTwo⟩ := appliesWords_fetch h
  rw [opcode] at atTwo
  obtain ⟨regA, regB, -⟩ := registersHold_tickWith (w := .miCo) rfl rfl rfl s
  obtain ⟨regA', regB', -⟩ := registersHold_tickWith (w := .roIiCe) rfl rfl rfl (tickWith .miCo s)
  have gate := gateReads_of_registers (regA'.trans regA) (regB'.trans regB)
  rw [cycleWords, ticksWith_append]
  exact appliesWords_append fetch (appliesWords_row notHalt atTwo gate List.drop_zero)

/-- A cycle that ends with the opcode byte fetched in `ir` ends so with any byte equal to it. -/
theorem next_endCycle_congr {w : ControlWord} {op op' mar bus pc : Byte} {u : State} (h : op = op') :
    (.next (endCycle w op mar bus pc u) : Host.Outcome State Fault Refusal) =
      .next (endCycle w op' mar bus pc u) := by
  rw [h]


/-! ### The whole state after a tick under each execute word (R101 to R112) -/

theorem tickWith_miRoCe (s : State) :
    tickWith .miRoCe s = { recompute false s with
      mar := s.memory.read s.mar, bus := s.memory.read s.mar, pc := inc8 s.pc,
      tStep := s.tStep + 1#4, controlWord := .miRoCe } := rfl

theorem tickWith_roAi (s : State) :
    tickWith .roAi s = { recompute false s with
      regA := s.memory.read s.mar, bus := s.memory.read s.mar,
      tStep := s.tStep + 1#4, controlWord := .roAi } := rfl

theorem tickWith_roAiCe (s : State) :
    tickWith .roAiCe s = { recompute false s with
      regA := s.memory.read s.mar, bus := s.memory.read s.mar, pc := inc8 s.pc,
      tStep := s.tStep + 1#4, controlWord := .roAiCe } := rfl

theorem tickWith_roBi (s : State) :
    tickWith .roBi s = { recompute false s with
      regB := s.memory.read s.mar, bus := s.memory.read s.mar,
      tStep := s.tStep + 1#4, controlWord := .roBi } := rfl

theorem tickWith_roBiCe (s : State) :
    tickWith .roBiCe s = { recompute false s with
      regB := s.memory.read s.mar, bus := s.memory.read s.mar, pc := inc8 s.pc,
      tStep := s.tStep + 1#4, controlWord := .roBiCe } := rfl

theorem tickWith_aiEo (s : State) :
    tickWith .aiEo s = { recompute false s with
      regA := (add8 s.regA s.regB).1, bus := (add8 s.regA s.regB).1,
      tStep := s.tStep + 1#4, controlWord := .aiEo } := rfl

theorem tickWith_aiEoSu (s : State) :
    tickWith .aiEoSu s = { recompute true s with
      regA := (sub8 s.regA s.regB).1, bus := (sub8 s.regA s.regB).1,
      tStep := s.tStep + 1#4, controlWord := .aiEoSu } := rfl

theorem tickWith_riAo (s : State) :
    tickWith .riAo s = { recompute false s with
      memory := s.memory.write s.mar s.regA, bus := s.regA,
      tStep := s.tStep + 1#4, controlWord := .riAo } := rfl

theorem tickWith_roJ (gate : Bool) (s : State) :
    tickWith (.roJ gate) s = { recompute false s with
      pc := if gate then s.memory.read s.mar else inc8 s.pc, bus := s.memory.read s.mar,
      tStep := s.tStep + 1#4, controlWord := .roJ gate } := rfl

theorem tickWith_biK1 (s : State) :
    tickWith .biK1 s = { recompute false s with
      regB := 0x01#8, bus := 0x01#8,
      tStep := s.tStep + 1#4, controlWord := .biK1 } := rfl

theorem tickWith_riEo (s : State) :
    tickWith .riEo s = { recompute false s with
      memory := s.memory.write s.mar (add8 s.regA s.regB).1, bus := (add8 s.regA s.regB).1,
      tStep := s.tStep + 1#4, controlWord := .riEo } := rfl

theorem tickWith_riEoSu (s : State) :
    tickWith .riEoSu s = { recompute true s with
      memory := s.memory.write s.mar (sub8 s.regA s.regB).1, bus := (sub8 s.regA s.regB).1,
      tStep := s.tStep + 1#4, controlWord := .riEoSu } := rfl

theorem tickWith_aoOi (s : State) :
    tickWith .aoOi s = { recompute false s with
      output := s.regA, bus := s.regA,
      tStep := s.tStep + 1#4, controlWord := .aoOi } := rfl

theorem tickWith_halt (s : State) :
    tickWith .halt s = { recompute false s with
      hlt := true, tStep := s.tStep + 1#4, controlWord := .halt } := rfl

theorem tickWith_srSu (s : State) :
    tickWith .srSu s = { recompute true s with tStep := 0#4, controlWord := .srSu } := rfl

/-- Where an instruction's row is SR alone its cycle is `noOperation` (R160, R163). -/
theorem exec_eq_ticksWith_of_noOperation {i : Instr} {s : State} (opcode : s.memory.read s.pc = i.opcode)
    (row : ∀ cf zf, executeRow cf zf (sel i.opcode) = [.stepReset])
    (meaning : exec i s = .next (noOperation i.opcode s)) :
    exec i s = .next (ticksWith (cycleWords i s) s) := by
  rw [meaning, cycleWords, row, ← opcode, ← tickWith_stepReset_fetch]
  rfl

/-- The selectors of the four extended opcodes with a row of their own (R63, R64). -/
theorem sel_extended_opcodes :
    sel 0xF0#8 = 0x10#5 ∧ sel 0xF1#8 = 0x11#5 ∧ sel 0xF2#8 = 0x12#5 ∧ sel 0xF3#8 = 0x13#5 := by
  decide

/-- The meaning of an instruction other than HLT whose bytes stand at `pc` is what the words of its cycle
do (R120, R171). -/
theorem exec_eq_ticksWith {i : Instr} {s : State} (code : codeAt (encode i) s.pc s = true)
    (notHalt : i ≠ .hlt) : exec i s = .next (ticksWith (cycleWords i s) s) := by
  cases i with
  | hlt => exact absurd rfl notHalt
  | nop x =>
    exact exec_eq_ticksWith_of_noOperation ((codeAt_one _ _ _).mp code) (executeRow_nop x) rfl
  | unassignedF4 | unassignedF5 | unassignedF6 | unassignedF7 | unassignedF8 | unassignedF9
  | unassignedFA | unassignedFB | unassignedFC | unassignedFD | unassignedFE =>
    exact exec_eq_ticksWith_of_noOperation ((codeAt_one _ _ _).mp code) (fun _ _ => rfl) rfl
  | lda x d | ldi x d | ldb x d | lbi x d | add x d | adi x d | sub x d | sbi x d | sta x d | jmp x d
  | cmp x d | cpi x d | bnz x d | jz x d =>
    obtain ⟨opcode, rfl⟩ := (codeAt_two _ _ _ _).mp code
    rw [cycleWords, Instr.opcode, sel_opcodeByte x (by decide)]
    simp only [executeRow, ticksWith, BitVec.reduceAppend, BitVec.toNat_ofNat, List.cons_append,
      List.nil_append, tickWith_miCo, tickWith_roIiCe, tickWith_miRoCe, tickWith_roAi, tickWith_roAiCe,
      tickWith_roBi, tickWith_roBiCe, tickWith_aiEo, tickWith_aiEoSu, tickWith_riAo, tickWith_roJ,
      tickWith_srSu, tickWith_stepReset, recompute]
    exact next_endCycle_congr opcode.symm
  | jc d | inc d | dec d =>
    obtain ⟨opcode, rfl⟩ := (codeAt_two _ _ _ _).mp code
    simp only [cycleWords, Instr.opcode, sel_extended_opcodes, executeRow, ticksWith,
      BitVec.toNat_ofNat, List.cons_append, List.nil_append, tickWith_miCo, tickWith_roIiCe,
      tickWith_miRoCe, tickWith_roAi, tickWith_roJ, tickWith_biK1, tickWith_riEo, tickWith_riEoSu,
      tickWith_stepReset, recompute]
    exact next_endCycle_congr opcode.symm
  | out =>
    have opcode := (codeAt_one _ _ _).mp code
    simp only [cycleWords, Instr.opcode, sel_extended_opcodes, executeRow, ticksWith,
      BitVec.toNat_ofNat, List.cons_append, List.nil_append, tickWith_miCo, tickWith_roIiCe, tickWith_aoOi,
      tickWith_stepReset, recompute]
    exact next_endCycle_congr opcode.symm

/-- A cycle has the two fetch words and the row's (R95). -/
theorem cycleWords_length (i : Instr) (s : State) :
    (cycleWords i s).length = 2 + executeCount i := by
  rw [cycleWords, List.length_append, executeRow_length, executeSteps_sel_opcode]
  rfl

/-- Only HLT has the opcode byte 0xFF (R64). -/
theorem opcode_ne_halt {i : Instr} (notHalt : i ≠ .hlt) : i.opcode ≠ 0xFF#8 := by
  intro opcode
  have decoded := decodePair_opcode i 0x00#8
  rw [opcode] at decoded
  exact notHalt decoded.symm

/-- From a boundary the ticks apply the words of the cycle and lead to what the meaning of the instruction
at `pc` answers (R120). -/
theorem appliesWords_exec {i : Instr} {s t : State} {ws : List ControlWord} (notHalt : i ≠ .hlt)
    (words : cycleWords i s = ws) (meaning : exec i s = .next t) (h : AtBoundary s)
    (code : codeAt (encode i) s.pc s = true) : AppliesWords ws s t := by
  rw [exec_eq_ticksWith code notHalt] at meaning
  cases meaning
  rw [← words]
  exact appliesWords_cycle h code (opcode_ne_halt notHalt)

/-- HLT's cycle is the fetch and the word HLT, which leave what HLT's meaning answers (R162). -/
theorem appliesWords_halt_cycle {s : State} (h : AtBoundary s)
    (isHalt : s.memory.read s.pc = 0xFF#8) :
    AppliesWords [.miCo, .roIiCe, .halt] s
      { endCycle .halt 0xFF#8 s.pc 0xFF#8 (inc8 s.pc) s with hlt := true, tStep := 3#4 } := by
  obtain ⟨fetch, running, microstep, opcode⟩ := appliesWords_fetch h
  obtain ⟨-, atZero⟩ := h
  have atTwo : (tickWith .roIiCe (tickWith .miCo s)).tStep = 2#4 := BitVec.eq_of_toNat_eq microstep
  have word : nextWord (tickWith .roIiCe (tickWith .miCo s)) = .halt := by
    rw [nextWord, atTwo, opcode, isHalt]
    rfl
  refine appliesWords_append fetch ((appliesWords_cons _ _ _ running).mpr ⟨word, ?_⟩)
  rw [word, tickWith_miCo, tickWith_roIiCe, tickWith_halt]
  simp only [appliesWords_nil, endCycle, recompute, atZero, isHalt]
  rfl

/-- Settles O25: the fetched instruction's bytes stand at `pc`, so that its meaning is what the words of its
cycle do; HLT's fourth tick changes nothing. -/
theorem stepIsTheMicroprogram : Obligations.StepIsTheMicroprogram := by
  intro s boundary
  have code := codeAt_encode_fetchInstr s
  rw [step_of_codeAt boundary code]
  by_cases halt : fetchInstr s = .hlt
  · rw [halt] at code
    rw [halt, exec_hlt]
    have third := (appliesWords_halt_cycle boundary ((codeAt_one _ _ _).mp code)).runTicks
    exact (runTicks_snoc third (tick_halted rfl)).symm
  · have cycle := (appliesWords_cycle boundary code (opcode_ne_halt halt)).runTicks
    rw [exec_eq_ticksWith code halt, ← cycle, cycleWords_length]

end Sys2Proof.Machine
end

section
/-! The instructions of 42_load_store.md to 45_system.md one by one: for each the equation of its meaning, the
words of its cycle, and what the cycle leaves (R121 to R163). -/

namespace Sys2Proof.Machine

/-! ### What the instructions share -/

/-- Two increments of the program counter add 2 (R121). -/
theorem afterTwo_eq (s : State) : afterTwo s = s.pc + 2#8 :=
  BitVec.add_assoc s.pc 1#8 1#8

/-- The words of a cycle, once the selector of its opcode byte is known. -/
theorem cycleWords_of_sel {i : Instr} {s : State} {selector : Selector} {ws : List ControlWord}
    (selects : sel i.opcode = selector)
    (row : executeRow (branchCarry s) (branchZero s) selector = ws) :
    cycleWords i s = .miCo :: .roIiCe :: ws := by
  rw [cycleWords, selects, row]
  rfl

/-- What the end of a cycle leaves: the registers, `output` and memory of the state `u` that the cycle has
reached, the latches named, and the flags of A and B at a boundary (R114, R120). -/
theorem endCycle_effect (w : ControlWord) (op mar bus pc : Byte) {u : State} (running : u.hlt = false) :
    RegistersHold u.regA u.regB u.output (endCycle w op mar bus pc u) ∧
      SameMemory u (endCycle w op mar bus pc u) ∧
      LatchesHold op mar bus pc (endCycle w op mar bus pc u) ∧
      FlagsOf (alu w.su u.regA u.regB) (endCycle w op mar bus pc u) ∧
      ClosedBy w (endCycle w op mar bus pc u) :=
  ⟨⟨rfl, rfl, rfl⟩, fun _ => rfl, ⟨rfl, rfl, rfl, rfl⟩, ⟨rfl, rfl, rfl⟩, ⟨running, rfl⟩, rfl⟩

/-- The end of a cycle that has written `v` at `a`: that byte reads as `v` and every other as before (R44,
R54). -/
theorem memoryButAt_endCycle {w : ControlWord} {op mar bus pc a v : Byte} {s u : State}
    (written : u.memory = s.memory.write a v) : MemoryButAt a v s (endCycle w op mar bus pc u) := by
  refine ⟨?_, fun b other => ?_⟩
  · rw [endCycle_memory, written, Memory.read_write_same]
  · rw [endCycle_memory, written, Memory.read_write_other _ _ other]

/-- A cycle's last tick but one leaves the ALU's result of A and B as the words before it leave them; the
cycle can be cut there (R101). -/
theorem appliesWords_cut_with_flags {ws : List ControlWord} {w v : ControlWord} {s t : State} {a b : Byte}
    (h : AppliesWords (ws ++ [w] ++ [v]) s t) (regA : (ticksWith ws s).regA = a)
    (regB : (ticksWith ws s).regB = b) :
    ∃ u, AppliesWords (ws ++ [w]) s u ∧ FlagsOf (alu w.su a b) u ∧ AppliesWords [v] u t := by
  obtain ⟨before, last⟩ := appliesWords_split h
  refine ⟨_, before, ?_, last⟩
  rw [ticksWith_append, ← regA, ← regB]
  exact flagsOf_tickWith w (ticksWith ws s)

/-! ### The loads -/

/-- LDA loads A with the byte at its address (R121). -/
theorem exec_lda (x : Nibble) (a : Byte) (s : State) :
    exec (.lda x a) s = .next (endCycle .stepReset (0x1#4 ++ x) a (s.memory.read a) (s.pc + 2#8)
      { s with regA := s.memory.read a }) := by
  rw [← afterTwo_eq]
  rfl

theorem cycleWords_lda (x : Nibble) (a : Byte) (s : State) :
    cycleWords (.lda x a) s = [.miCo, .roIiCe, .miCo, .miRoCe, .roAi, .stepReset] :=
  cycleWords_of_sel (sel_append x (by decide)) rfl

/-- Settles O39: the row of LDA, and the end of a cycle that has loaded A with the byte at `a`. -/
theorem ldaLoadsAFromMemory : Obligations.LdaLoadsAFromMemory := fun x a s boundary =>
  ⟨rfl, _, exec_lda x a s,
    appliesWords_exec (i := .lda x a) nofun (cycleWords_lda x a s) (exec_lda x a s) boundary,
    endCycle_effect _ _ _ _ _ boundary.1⟩

/-- LDI loads A with its operand byte (R122). -/
theorem exec_ldi (x : Nibble) (k : Byte) (s : State) :
    exec (.ldi x k) s = .next (endCycle .stepReset (0x2#4 ++ x) (s.pc + 1#8) k (s.pc + 2#8)
      { s with regA := k }) := by
  rw [← afterTwo_eq]
  rfl

theorem cycleWords_ldi (x : Nibble) (k : Byte) (s : State) :
    cycleWords (.ldi x k) s = [.miCo, .roIiCe, .miCo, .roAiCe, .stepReset] :=
  cycleWords_of_sel (sel_append x (by decide)) rfl

/-- Settles O40: the row of LDI, and the end of a cycle that has loaded A with its operand byte. -/
theorem ldiLoadsAImmediate : Obligations.LdiLoadsAImmediate := fun x k s boundary =>
  ⟨rfl, _, exec_ldi x k s,
    appliesWords_exec (i := .ldi x k) nofun (cycleWords_ldi x k s) (exec_ldi x k s) boundary,
    endCycle_effect _ _ _ _ _ boundary.1⟩

/-- LDB loads B with the byte at its address (R123). -/
theorem exec_ldb (x : Nibble) (a : Byte) (s : State) :
    exec (.ldb x a) s = .next (endCycle .stepReset (0x3#4 ++ x) a (s.memory.read a) (s.pc + 2#8)
      { s with regB := s.memory.read a }) := by
  rw [← afterTwo_eq]
  rfl

theorem cycleWords_ldb (x : Nibble) (a : Byte) (s : State) :
    cycleWords (.ldb x a) s = [.miCo, .roIiCe, .miCo, .miRoCe, .roBi, .stepReset] :=
  cycleWords_of_sel (sel_append x (by decide)) rfl

/-- Settles O41: the row of LDB, and the end of a cycle that has loaded B with the byte at `a`. -/
theorem ldbLoadsBFromMemory : Obligations.LdbLoadsBFromMemory := fun x a s boundary =>
  ⟨rfl, _, exec_ldb x a s,
    appliesWords_exec (i := .ldb x a) nofun (cycleWords_ldb x a s) (exec_ldb x a s) boundary,
    endCycle_effect _ _ _ _ _ boundary.1⟩

/-- LBI loads B with its operand byte (R124). -/
theorem exec_lbi (x : Nibble) (k : Byte) (s : State) :
    exec (.lbi x k) s = .next (endCycle .stepReset (0x4#4 ++ x) (s.pc + 1#8) k (s.pc + 2#8)
      { s with regB := k }) := by
  rw [← afterTwo_eq]
  rfl

theorem cycleWords_lbi (x : Nibble) (k : Byte) (s : State) :
    cycleWords (.lbi x k) s = [.miCo, .roIiCe, .miCo, .roBiCe, .stepReset] :=
  cycleWords_of_sel (sel_append x (by decide)) rfl

/-- Settles O42: the row of LBI, and the end of a cycle that has loaded B with its operand byte. -/
theorem lbiLoadsBImmediate : Obligations.LbiLoadsBImmediate := fun x k s boundary =>
  ⟨rfl, _, exec_lbi x k s,
    appliesWords_exec (i := .lbi x k) nofun (cycleWords_lbi x k s) (exec_lbi x k s) boundary,
    endCycle_effect _ _ _ _ _ boundary.1⟩

/-! ### The store -/

/-- STA stores A at its address (R125). -/
theorem exec_sta (x : Nibble) (a : Byte) (s : State) :
    exec (.sta x a) s = .next (endCycle .stepReset (0x9#4 ++ x) a s.regA (s.pc + 2#8)
      { s with memory := s.memory.write a s.regA }) := by
  rw [← afterTwo_eq]
  rfl

theorem cycleWords_sta (x : Nibble) (a : Byte) (s : State) :
    cycleWords (.sta x a) s = [.miCo, .roIiCe, .miCo, .miRoCe, .riAo, .stepReset] :=
  cycleWords_of_sel (sel_append x (by decide)) rfl

/-- Settles O43: the row of STA, and the end of a cycle that has written A at `a`. -/
theorem staStoresAToMemory : Obligations.StaStoresAToMemory := by
  intro x a s boundary
  have applied := appliesWords_exec (i := .sta x a) nofun (cycleWords_sta x a s) (exec_sta x a s) boundary
  obtain ⟨registers, -, latches, flags, closed⟩ := endCycle_effect .stepReset (0x9#4 ++ x) a s.regA
    (s.pc + 2#8) (u := { s with memory := s.memory.write a s.regA }) boundary.1
  exact ⟨rfl, _, exec_sta x a s, applied, registers, memoryButAt_endCycle rfl, latches, flags, closed⟩

/-! ### Arithmetic: the flags of the operation, before the last tick -/

/-- After the datum of an address form is in B: A is unchanged, and B is the byte at the operand's address. -/
theorem registers_after_datum_at_address (s : State) :
    (ticksWith [.miCo, .roIiCe, .miCo, .miRoCe, .roBi] s).regA = s.regA ∧
      (ticksWith [.miCo, .roIiCe, .miCo, .miRoCe, .roBi] s).regB =
        s.memory.read (s.memory.read (s.pc + 1#8)) := by
  simp only [ticksWith, tickWith_miCo, tickWith_roIiCe, tickWith_miRoCe, tickWith_roBi, recompute, inc8_eq,
    and_self]

/-- After an immediate datum is in B: A is unchanged, and B is the operand byte. -/
theorem registers_after_immediate_datum (s : State) :
    (ticksWith [.miCo, .roIiCe, .miCo, .roBiCe] s).regA = s.regA ∧
      (ticksWith [.miCo, .roIiCe, .miCo, .roBiCe] s).regB = s.memory.read (s.pc + 1#8) := by
  simp only [ticksWith, tickWith_miCo, tickWith_roIiCe, tickWith_roBiCe, recompute, inc8_eq, and_self]

/-- After the fifth microstep of INC and DEC: A is the byte at the operand's address, and B is 1. -/
theorem registers_after_constant_one (s : State) :
    (ticksWith [.miCo, .roIiCe, .miCo, .miRoCe, .roAi, .biK1] s).regA =
        s.memory.read (s.memory.read (s.pc + 1#8)) ∧
      (ticksWith [.miCo, .roIiCe, .miCo, .miRoCe, .roAi, .biK1] s).regB = 0x01#8 := by
  simp only [ticksWith, tickWith_miCo, tickWith_roIiCe, tickWith_miRoCe, tickWith_roAi, tickWith_biK1,
    recompute, inc8_eq, and_self]

/-- ADD and SUB can be cut before their last tick, with the flags of the operation on the byte at `a`. -/
theorem cut_after_datum_at_address {w : ControlWord} {op a : Byte} {s t : State}
    (code : codeAt [op, a] s.pc s = true)
    (h : AppliesWords [.miCo, .roIiCe, .miCo, .miRoCe, .roBi, w, .stepReset] s t) :
    ∃ u, AppliesWords [.miCo, .roIiCe, .miCo, .miRoCe, .roBi, w] s u ∧
      FlagsOf (alu w.su s.regA (s.memory.read a)) u ∧ AppliesWords [.stepReset] u t := by
  obtain ⟨-, rfl⟩ := (codeAt_two op a s.pc s).mp code
  obtain ⟨regA, regB⟩ := registers_after_datum_at_address s
  exact appliesWords_cut_with_flags (ws := [.miCo, .roIiCe, .miCo, .miRoCe, .roBi]) h regA regB

/-- ADI and SBI can be cut before their last tick, with the flags of the operation on the operand byte. -/
theorem cut_after_immediate_datum {w : ControlWord} {op k : Byte} {s t : State}
    (code : codeAt [op, k] s.pc s = true)
    (h : AppliesWords [.miCo, .roIiCe, .miCo, .roBiCe, w, .stepReset] s t) :
    ∃ u, AppliesWords [.miCo, .roIiCe, .miCo, .roBiCe, w] s u ∧
      FlagsOf (alu w.su s.regA k) u ∧ AppliesWords [.stepReset] u t := by
  obtain ⟨-, rfl⟩ := (codeAt_two op k s.pc s).mp code
  obtain ⟨regA, regB⟩ := registers_after_immediate_datum s
  exact appliesWords_cut_with_flags (ws := [.miCo, .roIiCe, .miCo, .roBiCe]) h regA regB

/-- INC and DEC can be cut before their last tick, with the flags of the operation on the byte at `a` and
1. -/
theorem cut_after_constant_one {w : ControlWord} {op a : Byte} {s t : State}
    (code : codeAt [op, a] s.pc s = true)
    (h : AppliesWords [.miCo, .roIiCe, .miCo, .miRoCe, .roAi, .biK1, w, .stepReset] s t) :
    ∃ u, AppliesWords [.miCo, .roIiCe, .miCo, .miRoCe, .roAi, .biK1, w] s u ∧
      FlagsOf (alu w.su (s.memory.read a) 0x01#8) u ∧ AppliesWords [.stepReset] u t := by
  obtain ⟨-, rfl⟩ := (codeAt_two op a s.pc s).mp code
  obtain ⟨regA, regB⟩ := registers_after_constant_one s
  exact appliesWords_cut_with_flags (ws := [.miCo, .roIiCe, .miCo, .miRoCe, .roAi, .biK1]) h regA regB

/-! ### Addition and subtraction -/

/-- ADD adds the byte at its address to A and leaves it in B (R130). -/
theorem exec_add (x : Nibble) (a : Byte) (s : State) :
    exec (.add x a) s = .next (endCycle .stepReset (0x5#4 ++ x) a (s.regA + s.memory.read a) (s.pc + 2#8)
      { s with regA := s.regA + s.memory.read a, regB := s.memory.read a }) := by
  rw [← afterTwo_eq]
  rfl

theorem cycleWords_add (x : Nibble) (a : Byte) (s : State) :
    cycleWords (.add x a) s =
      [.miCo, .roIiCe, .miCo, .miRoCe, .roBi, .aiEo, .stepReset] :=
  cycleWords_of_sel (sel_append x (by decide)) rfl

/-- Settles O44: ADD's row, cut before SR, and the end of a cycle with the sum in A. -/
theorem addAddsTheByteAtAnAddress : Obligations.AddAddsTheByteAtAnAddress := fun x a s boundary =>
  ⟨rfl, _, exec_add x a s,
    fun code => cut_after_datum_at_address code
      (appliesWords_exec (i := .add x a) nofun (cycleWords_add x a s) (exec_add x a s) boundary code),
    endCycle_effect _ _ _ _ _ boundary.1⟩

/-- ADI adds its operand byte to A and leaves it in B (R131). -/
theorem exec_adi (x : Nibble) (k : Byte) (s : State) :
    exec (.adi x k) s = .next (endCycle .stepReset (0x6#4 ++ x) (s.pc + 1#8) (s.regA + k) (s.pc + 2#8)
      { s with regA := s.regA + k, regB := k }) := by
  rw [← afterTwo_eq]
  rfl

theorem cycleWords_adi (x : Nibble) (k : Byte) (s : State) :
    cycleWords (.adi x k) s =
      [.miCo, .roIiCe, .miCo, .roBiCe, .aiEo, .stepReset] :=
  cycleWords_of_sel (sel_append x (by decide)) rfl

/-- Settles O45: ADI's row, cut before SR, and the end of a cycle with the sum in A. -/
theorem adiAddsTheImmediate : Obligations.AdiAddsTheImmediate := fun x k s boundary =>
  ⟨rfl, _, exec_adi x k s,
    fun code => cut_after_immediate_datum code
      (appliesWords_exec (i := .adi x k) nofun (cycleWords_adi x k s) (exec_adi x k s) boundary code),
    endCycle_effect _ _ _ _ _ boundary.1⟩

/-- The sum of a difference and its subtrahend is the minuend, with the borrow as the carry (R132, R138). -/
theorem add8_of_difference (a b : Byte) : add8 (a - b) b = (a, decide (a.toNat < b.toNat)) :=
  Prod.ext (BitVec.sub_add_cancel a b) (decide_eq_decide.mpr (carry_of_difference a b))

/-- What SUB and SBI leave: the difference in A, the subtrahend in B, and for flags the borrow and whether
the old A was 0 (R132, R133). -/
theorem difference_effect (op mar m pc : Byte) {s : State} (running : s.hlt = false) :
    let t := endCycle .stepReset op mar (s.regA - m) pc { s with regA := s.regA - m, regB := m }
    RegistersHold (s.regA - m) m s.output t ∧ SameMemory s t ∧
      LatchesHold op mar (s.regA - m) pc t ∧
      FlagsOf (s.regA, decide (s.regA.toNat < m.toNat)) t ∧ ClosedBy .stepReset t := by
  rw [← add8_of_difference]
  exact endCycle_effect .stepReset op mar (s.regA - m) pc running

/-- SUB subtracts the byte at its address from A and leaves it in B (R132). -/
theorem exec_sub (x : Nibble) (a : Byte) (s : State) :
    exec (.sub x a) s = .next (endCycle .stepReset (0x7#4 ++ x) a (s.regA - s.memory.read a) (s.pc + 2#8)
      { s with regA := s.regA - s.memory.read a, regB := s.memory.read a }) := by
  rw [← afterTwo_eq]
  rfl

theorem cycleWords_sub (x : Nibble) (a : Byte) (s : State) :
    cycleWords (.sub x a) s =
      [.miCo, .roIiCe, .miCo, .miRoCe, .roBi, .aiEoSu, .stepReset] :=
  cycleWords_of_sel (sel_append x (by decide)) rfl

/-- Settles O46: SUB's row, cut before SR, and the flags of the difference plus its subtrahend. -/
theorem subSubtractsTheByteAtAnAddress : Obligations.SubSubtractsTheByteAtAnAddress :=
  fun x a s boundary =>
  ⟨rfl, _, exec_sub x a s,
    fun code => cut_after_datum_at_address code
      (appliesWords_exec (i := .sub x a) nofun (cycleWords_sub x a s) (exec_sub x a s) boundary code),
    difference_effect _ _ _ _ boundary.1⟩

/-- SBI subtracts its operand byte from A and leaves it in B (R133). -/
theorem exec_sbi (x : Nibble) (k : Byte) (s : State) :
    exec (.sbi x k) s = .next (endCycle .stepReset (0x8#4 ++ x) (s.pc + 1#8) (s.regA - k) (s.pc + 2#8)
      { s with regA := s.regA - k, regB := k }) := by
  rw [← afterTwo_eq]
  rfl

theorem cycleWords_sbi (x : Nibble) (k : Byte) (s : State) :
    cycleWords (.sbi x k) s =
      [.miCo, .roIiCe, .miCo, .roBiCe, .aiEoSu, .stepReset] :=
  cycleWords_of_sel (sel_append x (by decide)) rfl

/-- Settles O47: SBI's row, cut before SR, and the flags of the difference plus its subtrahend. -/
theorem sbiSubtractsTheImmediate : Obligations.SbiSubtractsTheImmediate := fun x k s boundary =>
  ⟨rfl, _, exec_sbi x k s,
    fun code => cut_after_immediate_datum code
      (appliesWords_exec (i := .sbi x k) nofun (cycleWords_sbi x k s) (exec_sbi x k s) boundary code),
    difference_effect _ _ _ _ boundary.1⟩

/-! ### Comparison -/

/-- What CMP and CPI leave: the datum in B and the flags of A minus it, which the next tick, the fetch of the
next instruction, replaces by those of A plus it (R134, R135). -/
theorem comparison_effect (op mar m pc : Byte) {s : State} (running : s.hlt = false) :
    let t := endCycle .srSu op mar m pc { s with regB := m }
    RegistersHold s.regA m s.output t ∧ SameMemory s t ∧ LatchesHold op mar m pc t ∧
      FlagsOf (sub8 s.regA m) t ∧ (t.zf = true ↔ s.regA = m) ∧ ClosedBy .srSu t ∧
      ∃ v, tick t = .next v ∧ FlagsOf (add8 s.regA m) v := by
  intro t
  obtain ⟨registers, memory, latches, flags, closed⟩ :=
    endCycle_effect .srSu op mar m pc (u := { s with regB := m }) running
  have equal : t.zf = true ↔ s.regA = m := beq_iff_eq.trans (difference_zero s.regA m)
  obtain ⟨nextTick, -⟩ := tick_at_microstep_zero (s := t) running rfl
  exact ⟨registers, memory, latches, flags, equal, closed, _, nextTick, flagsOf_tickWith .miCo t⟩

/-- CMP compares A with the byte at its address and leaves that in B (R134). -/
theorem exec_cmp (x : Nibble) (a : Byte) (s : State) :
    exec (.cmp x a) s = .next (endCycle .srSu (0xB#4 ++ x) a (s.memory.read a) (s.pc + 2#8)
      { s with regB := s.memory.read a }) := by
  rw [← afterTwo_eq]
  rfl

theorem cycleWords_cmp (x : Nibble) (a : Byte) (s : State) :
    cycleWords (.cmp x a) s =
      [.miCo, .roIiCe, .miCo, .miRoCe, .roBi, .srSu] :=
  cycleWords_of_sel (sel_append x (by decide)) rfl

/-- Settles O48: CMP's row, which ends in SR+SU, and the effect of a comparison. -/
theorem cmpComparesWithTheByteAtAnAddress : Obligations.CmpComparesWithTheByteAtAnAddress :=
  fun x a s boundary =>
  ⟨rfl, _, exec_cmp x a s,
    appliesWords_exec (i := .cmp x a) nofun (cycleWords_cmp x a s) (exec_cmp x a s) boundary,
    comparison_effect _ _ _ _ boundary.1⟩

/-- CPI compares A with its operand byte and leaves that in B (R135). -/
theorem exec_cpi (x : Nibble) (k : Byte) (s : State) :
    exec (.cpi x k) s = .next (endCycle .srSu (0xC#4 ++ x) (s.pc + 1#8) k (s.pc + 2#8)
      { s with regB := k }) := by
  rw [← afterTwo_eq]
  rfl

theorem cycleWords_cpi (x : Nibble) (k : Byte) (s : State) :
    cycleWords (.cpi x k) s =
      [.miCo, .roIiCe, .miCo, .roBiCe, .srSu] :=
  cycleWords_of_sel (sel_append x (by decide)) rfl

/-- Settles O49: CPI's row, which ends in SR+SU, and the effect of a comparison. -/
theorem cpiComparesWithTheImmediate : Obligations.CpiComparesWithTheImmediate :=
  fun x k s boundary =>
  ⟨rfl, _, exec_cpi x k s,
    appliesWords_exec (i := .cpi x k) nofun (cycleWords_cpi x k s) (exec_cpi x k s) boundary,
    comparison_effect _ _ _ _ boundary.1⟩

/-! ### INC and DEC -/

/-- The sum with 1 carries exactly from 0xFF (R136). -/
theorem add8_one (m : Byte) : add8 m 0x01#8 = (m + 1#8, m == 0xFF#8) := by
  revert m; decide

/-- The difference with 1 borrows exactly from 0 (R137). -/
theorem sub8_one (m : Byte) : sub8 m 0x01#8 = (m - 1#8, m == 0x00#8) := by
  revert m; decide

/-- The sum with 1 is 0 exactly from 0xFF (R136). -/
theorem sum_one_zero (m : Byte) : (m + 1#8 == 0x00#8) = (m == 0xFF#8) := by
  revert m; decide

/-- The difference with 1 is 0 exactly from 1 (R137). -/
theorem difference_one_zero (m : Byte) : (m - 1#8 == 0x00#8) = (m == 0x01#8) := by
  revert m; decide

/-- What INC and DEC leave: the result `r` at `a`, the old byte in A, 1 in B, and the flags of the old byte
plus 1 (R136, R137). -/
theorem count_effect (op a r pc : Byte) {s : State} (running : s.hlt = false) :
    let m := s.memory.read a
    let t := endCycle .stepReset op a r pc
      { s with regA := m, regB := 0x01#8, memory := s.memory.write a r }
    RegistersHold m 0x01#8 s.output t ∧ MemoryButAt a r s t ∧ LatchesHold op a r pc t ∧
      FlagsOf (m + 1#8, m == 0xFF#8) t ∧ t.zf = (m == 0xFF#8) ∧ ClosedBy .stepReset t := by
  intro m t
  obtain ⟨registers, -, latches, flags, closed⟩ := endCycle_effect .stepReset op a r pc
    (u := { s with regA := m, regB := 0x01#8, memory := s.memory.write a r }) running
  have sum : FlagsOf (m + 1#8, m == 0xFF#8) t := by rw [← add8_one]; exact flags
  obtain ⟨-, -, zero⟩ := id sum
  exact ⟨registers, memoryButAt_endCycle rfl, latches, sum, zero.trans (sum_one_zero m), closed⟩

/-- INC writes the byte at its address plus 1 back, with the old byte in A and 1 in B (R136). -/
theorem exec_inc (a : Byte) (s : State) :
    exec (.inc a) s = .next (endCycle .stepReset 0xF1#8 a (s.memory.read a + 1#8) (s.pc + 2#8)
      { s with
        regA := s.memory.read a, regB := 0x01#8
        memory := s.memory.write a (s.memory.read a + 1#8) }) := by
  rw [← afterTwo_eq]
  rfl

theorem cycleWords_inc (a : Byte) (s : State) :
    cycleWords (.inc a) s =
      [.miCo, .roIiCe, .miCo, .miRoCe, .roAi, .biK1, .riEo, .stepReset] :=
  cycleWords_of_sel (sel_extended 0x1#4) rfl

/-- DEC writes the byte at its address less 1 back, with the old byte in A and 1 in B (R137). -/
theorem exec_dec (a : Byte) (s : State) :
    exec (.dec a) s = .next (endCycle .stepReset 0xF2#8 a (s.memory.read a - 1#8) (s.pc + 2#8)
      { s with
        regA := s.memory.read a, regB := 0x01#8
        memory := s.memory.write a (s.memory.read a - 1#8) }) := by
  rw [← afterTwo_eq]
  rfl

theorem cycleWords_dec (a : Byte) (s : State) :
    cycleWords (.dec a) s =
      [.miCo, .roIiCe, .miCo, .miRoCe, .roAi, .biK1, .riEoSu, .stepReset] :=
  cycleWords_of_sel (sel_extended 0x2#4) rfl

/-- Settles O50: INC's row, cut before SR, and the flags of the byte plus 1. -/
theorem incIncrementsMemory : Obligations.IncIncrementsMemory := by
  refine fun a s boundary => ⟨rfl, _, exec_inc a s, fun code => ?_, count_effect _ _ _ _ boundary.1⟩
  have applied := appliesWords_exec (i := .inc a) nofun (cycleWords_inc a s) (exec_inc a s) boundary code
  rw [← add8_one]
  exact cut_after_constant_one code applied

/-- Settles O51: DEC's row, cut before SR with the flags of the byte less 1, and at the end those of the byte
plus 1. -/
theorem decDecrementsMemory : Obligations.DecDecrementsMemory := by
  refine fun a s boundary => ⟨rfl, _, exec_dec a s, fun code => ?_, count_effect _ _ _ _ boundary.1⟩
  have applied := appliesWords_exec (i := .dec a) nofun (cycleWords_dec a s) (exec_dec a s) boundary code
  obtain ⟨u, before, flags, last⟩ := cut_after_constant_one code applied
  have difference : FlagsOf (s.memory.read a - 1#8, s.memory.read a == 0x00#8) u := by
    rw [← sub8_one]
    exact flags
  obtain ⟨-, -, zero⟩ := id difference
  exact ⟨u, before, difference, zero.trans (difference_one_zero _), last⟩

/-! ### Control transfer -/

/-- A branch leaves everything but the latches and the flags alone, and `pc` at its target or after it (R109,
R154). -/
theorem branchCycle_eq (op : Byte) (gate : Bool) (t : Byte) (s : State) :
    branchCycle op gate t s =
      endCycle .stepReset op (s.pc + 1#8) t (if gate then t else s.pc + 2#8) s := by
  rw [← afterTwo_eq]
  rfl

/-- JMP goes to its target (R150). -/
theorem exec_jmp (x : Nibble) (t : Byte) (s : State) :
    exec (.jmp x t) s = .next (endCycle .stepReset (0xA#4 ++ x) (s.pc + 1#8) t t s) := rfl

/-- BNZ goes on if A + B is 0 modulo 256 and to its target otherwise (R151). -/
theorem exec_bnz (x : Nibble) (t : Byte) (s : State) :
    exec (.bnz x t) s = .next (endCycle .stepReset (0xD#4 ++ x) (s.pc + 1#8) t
      (if s.regA + s.regB == 0x00#8 then s.pc + 2#8 else t) s) := by
  have gate : (if !branchZero s then t else s.pc + 2#8) = if branchZero s then s.pc + 2#8 else t := by
    cases branchZero s <;> rfl
  exact congrArg _ ((branchCycle_eq _ _ t s).trans (congrArg (endCycle _ _ _ t · s) gate))

/-- JZ goes to its target if A + B is 0 modulo 256 and on otherwise (R152). -/
theorem exec_jz (x : Nibble) (t : Byte) (s : State) :
    exec (.jz x t) s = .next (endCycle .stepReset (0xE#4 ++ x) (s.pc + 1#8) t
      (if s.regA + s.regB == 0x00#8 then t else s.pc + 2#8) s) :=
  congrArg _ (branchCycle_eq (opcodeByte 0xE#4 x) (branchZero s) t s)

/-- JC goes to its target if A + B exceeds 255 and on otherwise (R153). -/
theorem exec_jc (t : Byte) (s : State) :
    exec (.jc t) s = .next (endCycle .stepReset 0xF0#8 (s.pc + 1#8) t
      (if decide (255 < s.regA.toNat + s.regB.toNat) then t else s.pc + 2#8) s) :=
  congrArg _ (branchCycle_eq 0xF0#8 (branchCarry s) t s)

theorem cycleWords_jmp (x : Nibble) (t : Byte) (s : State) :
    cycleWords (.jmp x t) s = [.miCo, .roIiCe, .miCo, .roJ true, .stepReset] :=
  cycleWords_of_sel (sel_append x (by decide)) rfl

theorem cycleWords_bnz (x : Nibble) (t : Byte) (s : State) :
    cycleWords (.bnz x t) s = [.miCo, .roIiCe, .miCo, .roJ (!(s.regA + s.regB == 0x00#8)), .stepReset] :=
  cycleWords_of_sel (sel_append x (by decide)) rfl

theorem cycleWords_jz (x : Nibble) (t : Byte) (s : State) :
    cycleWords (.jz x t) s = [.miCo, .roIiCe, .miCo, .roJ (s.regA + s.regB == 0x00#8), .stepReset] :=
  cycleWords_of_sel (sel_append x (by decide)) rfl

theorem cycleWords_jc (t : Byte) (s : State) :
    cycleWords (.jc t) s =
      [.miCo, .roIiCe, .miCo, .roJ (decide (255 < s.regA.toNat + s.regB.toNat)), .stepReset] :=
  cycleWords_of_sel (sel_extended 0x0#4) rfl

/-- Settles O52: JMP's row, whose gate is always asserted. -/
theorem jmpJumpsAlways : Obligations.JmpJumpsAlways := fun x t s boundary =>
  ⟨rfl, _, exec_jmp x t s,
    appliesWords_exec (i := .jmp x t) nofun (cycleWords_jmp x t s) (exec_jmp x t s) boundary,
    endCycle_effect _ _ _ _ _ boundary.1⟩

/-- Settles O53: BNZ's row, whose gate is the negated zero flag of A + B. -/
theorem bnzBranchesOnANonzeroSum : Obligations.BnzBranchesOnANonzeroSum := fun x t s boundary =>
  ⟨rfl, _, exec_bnz x t s,
    appliesWords_exec (i := .bnz x t) nofun (cycleWords_bnz x t s) (exec_bnz x t s) boundary,
    endCycle_effect _ _ _ _ _ boundary.1⟩

/-- Settles O54: JZ's row, whose gate is the zero flag of A + B. -/
theorem jzJumpsOnAZeroSum : Obligations.JzJumpsOnAZeroSum := fun x t s boundary =>
  ⟨rfl, _, exec_jz x t s,
    appliesWords_exec (i := .jz x t) nofun (cycleWords_jz x t s) (exec_jz x t s) boundary,
    endCycle_effect _ _ _ _ _ boundary.1⟩

/-- Settles O55: JC's row, whose gate is the carry of A + B. -/
theorem jcJumpsOnACarryingSum : Obligations.JcJumpsOnACarryingSum := fun t s boundary =>
  ⟨rfl, _, exec_jc t s,
    appliesWords_exec (i := .jc t) nofun (cycleWords_jc t s) (exec_jc t s) boundary,
    endCycle_effect _ _ _ _ _ boundary.1⟩

/-! ### System -/

/-- OUT copies A to the output register (R161). -/
theorem exec_out (s : State) :
    exec .out s = .next (endCycle .stepReset 0xF3#8 s.pc s.regA (s.pc + 1#8)
      { s with output := s.regA }) := rfl

theorem cycleWords_out (s : State) :
    cycleWords .out s = [.miCo, .roIiCe, .aoOi, .stepReset] :=
  cycleWords_of_sel (sel_extended 0x3#4) rfl

/-- After the fetch and AO+OI `output` is A (R161). -/
theorem output_after_aoOi (s : State) : (ticksWith [.miCo, .roIiCe, .aoOi] s).output = s.regA := by
  simp only [ticksWith, tickWith_miCo, tickWith_roIiCe, tickWith_aoOi, recompute]

/-- Settles O56: OUT's row, cut before SR. -/
theorem outCopiesAToOutput : Obligations.OutCopiesAToOutput := by
  refine fun s boundary => ⟨rfl, _, exec_out s, fun code => ?_, endCycle_effect _ _ _ _ _ boundary.1⟩
  obtain ⟨before, last⟩ := appliesWords_split (ws := [.miCo, .roIiCe, .aoOi])
    (appliesWords_exec (i := .out) nofun (cycleWords_out s) (exec_out s) boundary code)
  exact ⟨_, before, output_after_aoOi s, last⟩

/-- Settles O57: HLT's three words set `hlt`, and a halted machine's ticks change nothing. -/
theorem hltHaltsForGood : Obligations.HltHaltsForGood := fun s boundary =>
  ⟨rfl, _, exec_hlt s, fun code => appliesWords_halt_cycle boundary ((codeAt_one _ _ _).mp code),
    ⟨rfl, rfl, rfl⟩, fun _ => rfl, ⟨rfl, rfl, rfl, rfl⟩, ⟨rfl, rfl, rfl⟩, rfl, rfl, rfl,
    fun n => runTicks_halted n rfl⟩

/-- An instruction whose meaning is `noOperation` with its one byte, and whose row is SR alone, does what NOP
does but for that byte in `ir` and on the bus (R163). -/
theorem behaves_as_nop {i : Instr} {op : Byte} (bytes : encode i = [op])
    (meaning : ∀ s, exec i s = .next (noOperation op s))
    (row : ∀ cf zf, executeRow cf zf (sel op) = [.stepReset]) (x : Nibble) (s : State)
    (boundary : AtBoundary s) :
    encode i = [op] ∧
      ∃ t n : State, exec i s = .next t ∧ exec (.nop x) s = .next n ∧
        t = { n with ir := op, bus := op } ∧
        (codeAt [op] s.pc s = true → AppliesWords [.miCo, .roIiCe, .stepReset] s t) ∧
        RegistersHold s.regA s.regB s.output t ∧ SameMemory s t ∧
        LatchesHold op s.pc op (s.pc + 1#8) t ∧ FlagsOf (add8 s.regA s.regB) t ∧
        ClosedBy .stepReset t :=
  ⟨bytes, _, _, meaning s, exec_nop x s, rfl, fun code => appliesWords_noOperation boundary code row,
    noOperation_effect op boundary⟩

/-- Settles O58: each of the eleven has `noOperation` for its meaning and SR alone for its row. -/
theorem unassignedOpcodesBehaveAsNop : Obligations.UnassignedOpcodesBehaveAsNop := by
  intro q unassigned
  fin_cases unassigned <;> exact behaves_as_nop rfl (fun _ => rfl) (fun _ _ => rfl)

end Sys2Proof.Machine
end

section
/-! Steps and runs: a step ends at the first boundary or at the halt (R95, R97), nothing stops (R180), and what
an instruction writes (R33) and its flags (R114) come to in runs of steps (R52, R154, R202). -/

namespace Sys2Proof.Machine

/-! ### The first boundary -/

/-- `k` ticks from `s` lead to `t`, which is at a boundary or halted, and no fewer ticks but none lead to such
a state. -/
def FirstStop (k : Nat) (s t : State) : Prop :=
  runTicks k s = .next t ∧ (t.tStep = 0#4 ∨ t.hlt = true) ∧
    ∀ j, 0 < j → j < k → ∃ u, runTicks j s = .next u ∧ u.tStep ≠ 0#4 ∧ u.hlt = false

/-- A tick that leads to a boundary or halts is a first stop. -/
theorem firstStop_one {s t : State} (ticks : tick s = .next t) (stops : t.tStep = 0#4 ∨ t.hlt = true) :
    FirstStop 1 s t :=
  ⟨runTicks_next 0 ticks, stops, fun _ pos below => by omega⟩

/-- A tick that leads between boundaries comes before the first stop from there. -/
theorem firstStop_succ {k : Nat} {s u t : State} (ticks : tick s = .next u)
    (between : ¬ (u.tStep = 0#4 ∨ u.hlt = true)) (h : FirstStop k u t) : FirstStop (k + 1) s t := by
  obtain ⟨run, stops, earlier⟩ := h
  rw [not_or, Bool.not_eq_true] at between
  refine ⟨(runTicks_next k ticks).trans run, stops, fun j pos below => ?_⟩
  match j with
  | 1 => exact ⟨u, runTicks_next 0 ticks, between⟩
  | j + 2 =>
    obtain ⟨v, reached, midCycle⟩ := earlier (j + 1) (by omega) (by omega)
    exact ⟨v, (runTicks_next (j + 1) ticks).trans reached, midCycle⟩

/-- The ticks to the boundary end at the first stop, if there are enough of them to take `t_step` past 7. -/
theorem ticksToBoundary_firstStop {n : Nat} {s : State} (running : s.hlt = false)
    (enough : 7 < s.tStep.toNat + n) (pos : 0 < n) :
    ∃ k t, 1 ≤ k ∧ k ≤ n ∧ FirstStop k s t ∧ ticksToBoundary n s = .next t := by
  induction n generalizing s with
  | zero => exact absurd pos (Nat.lt_irrefl 0)
  | succ n ih =>
    have ticks := tick_running running
    rw [ticksToBoundary_succ running]
    split
    case isTrue stops => exact ⟨1, _, le_rfl, by omega, firstStop_one ticks stops, rfl⟩
    case isFalse between =>
      have stillRuns := (Bool.not_eq_true _).mp (not_or.mp between).2
      have noReset : (nextWord s).sr = false := by
        by_contra reset
        exact between (.inl (tStep_of_sr ((Bool.not_eq_false _).mp reset)))
      obtain ⟨below, counts⟩ := tStep_of_not_sr noReset
      obtain ⟨k, t, later, bound, first, run⟩ := ih stillRuns (by omega) (by omega)
      exact ⟨k + 1, t, by omega, by omega, firstStop_succ ticks between first, run⟩

/-- From a boundary with an instruction other than HLT the first stop is the end of its cycle (R95). -/
theorem firstStop_cycle {s : State} (h : AtBoundary s) (notHalt : s.memory.read s.pc ≠ 0xFF#8) :
    ∃ t, FirstStop (2 + executeCount (fetchInstr s)) s t := by
  obtain ⟨t, run, -, atZero⟩ := runTicks_whole_cycle h notHalt
  refine ⟨t, run, .inl atZero, fun j pos below => ?_⟩
  obtain ⟨u, reached, running, counts⟩ := runTicks_within_cycle h notHalt below
  refine ⟨u, reached, ?_, running⟩
  intro atBoundary
  rw [atBoundary] at counts
  exact pos.ne counts

/-- From a boundary with HLT the first stop is its third tick (R95, R162). -/
theorem firstStop_halt_cycle {s : State} (h : AtBoundary s) (isHalt : s.memory.read s.pc = 0xFF#8) :
    ∃ t, FirstStop 3 s t ∧ runTicks 4 s = .next t := by
  obtain ⟨t, third, halted, -, fourth⟩ := runTicks_halt_cycle h isHalt
  obtain ⟨u, v, first, runs, atOne, second, runsOn, atTwo, -⟩ := runTicks_fetch h
  refine ⟨t, ⟨third, .inr halted, fun j pos below => ?_⟩, fourth⟩
  match j with
  | 1 => exact ⟨u, first, by rw [atOne]; decide, runs⟩
  | 2 => exact ⟨v, second, by bv_omega, runsOn⟩

/-- A step of a running machine is the run to the first boundary or the halt (R95, R97). -/
theorem step_firstStop {s : State} (running : s.hlt = false) :
    ∃ k t, 1 ≤ k ∧ k ≤ 8 ∧ FirstStop k s t ∧ step s = .next t := by
  by_cases atZero : s.tStep = 0#4
  · have boundary : AtBoundary s := ⟨running, atZero⟩
    have cycle := stepIsTheMicroprogram s boundary
    have count := executeCount_fetchInstr s
    by_cases isHalt : s.memory.read s.pc = 0xFF#8
    · obtain ⟨t, first, fourth⟩ := firstStop_halt_cycle boundary isHalt
      rw [count, isHalt] at cycle
      exact ⟨3, t, by omega, by omega, first, cycle.trans fourth⟩
    · obtain ⟨t, first⟩ := firstStop_cycle boundary isHalt
      obtain ⟨-, long⟩ := executeSteps_bounds (sel (s.memory.read s.pc))
      exact ⟨_, t, by omega, by omega, first, cycle.trans first.1⟩
  · obtain ⟨k, t, pos, bound, first, run⟩ :=
      ticksToBoundary_firstStop (n := longestCycle) running (Nat.lt_add_left _ (by decide)) (by decide)
    exact ⟨k, t, pos, bound, first, (step_midCycle running atZero).trans run⟩

/-- Settles O26: a boundary's step is the run of its cycle, another's the ticks to the boundary. -/
theorem stepEndsAtTheFirstBoundaryOrHalt : Obligations.StepEndsAtTheFirstBoundaryOrHalt := by
  intro s running
  obtain ⟨k, t, pos, bound, ⟨run, stops, earlier⟩, ends⟩ := step_firstStop running
  exact ⟨k, t, pos, bound, run, ends, stops, earlier⟩

/-- Every instruction has a meaning on every state (R180). -/
theorem exists_exec_next (i : Instr) (s : State) : ∃ t, exec i s = .next t := by
  by_cases halt : i = .hlt
  · exact ⟨_, halt ▸ exec_hlt s⟩
  · obtain ⟨mar, bus, pc, u, cycle, -, -⟩ := exec_eq_endCycle halt s
    exact ⟨_, cycle⟩

/-- Settles O27: a step is none at all, or a run to the first stop. -/
theorem nothingEverStops : Obligations.NothingEverStops := by
  refine ⟨exists_exec_next, exists_tick_next, fun s => ?_⟩
  cases h : s.hlt with
  | true => exact ⟨s, step_halted h⟩
  | false =>
    obtain ⟨k, t, -, -, -, ends⟩ := step_firstStop h
    exact ⟨t, ends⟩

/-! ### Runs of steps -/

/-- The first of a run of steps of a machine. -/
theorem run_next {M : Host.Core} {s t : M.State} (n : Nat) (h : M.step s = .next t) :
    M.run (n + 1) s = M.run n t := by
  simp only [Host.Core.run, h]

/-- Settles O28: by induction on the number of steps, none of which changes a halted machine. -/
theorem haltedMachineIsStuck : Obligations.HaltedMachineIsStuck := by
  intro n s halted
  refine ⟨runTicks_halted n halted, ?_⟩
  induction n with
  | zero => rfl
  | succ n ih => exact (run_next (M := Sys2Proof.core) n (step_halted halted)).trans ih

/-- With all of memory zero a step is NOP's (R160, R202). -/
theorem step_of_zero_memory {s : State} (h : AtBoundary s) (zero : s.memory = []) :
    step s = .next (noOperation 0x00#8 s) := by
  have code : codeAt (encode (.nop 0x0#4)) s.pc s = true := by
    refine (codeAt_one _ _ _).mpr ?_
    rw [zero]
    rfl
  exact (step_of_codeAt h code).trans (exec_nop 0x0#4 s)

/-- Settles O36: by induction on the number of steps, each of them NOP's. -/
theorem zeroMemoryRunsForEver : Obligations.ZeroMemoryRunsForEver := by
  intro n s boundary zero
  induction n generalizing s with
  | zero => exact ⟨s, rfl, boundary, zero, by simp, rfl, rfl, rfl⟩
  | succ n ih =>
    obtain ⟨⟨regA, regB, output⟩, -, ⟨-, -, -, pc⟩, -, next, -⟩ := noOperation_effect 0x00#8 boundary
    obtain ⟨t, run, atEnd, stillZero, pcEnd, registers⟩ := ih (noOperation 0x00#8 s) next zero
    rw [regA, regB, output] at registers
    have first := run_next (M := Sys2Proof.core) n (step_of_zero_memory boundary zero)
    refine ⟨t, first.trans run, atEnd, stillZero, ?_, registers⟩
    rw [pcEnd, pc, BitVec.add_assoc, Nat.add_comm, BitVec.ofNat_add]

/-! ### The flags that a branch finds -/

/-- The meaning of an instruction ends with a recompute under its last word (R114). -/
theorem flagsOf_exec {i : Instr} {s t : State} (ht : exec i s = .next t) :
    FlagsOf (alu (lastWord i).su t.regA t.regB) t := by
  by_cases halt : i = .hlt
  · subst halt
    rw [exec_hlt] at ht
    cases ht
    exact ⟨rfl, rfl, rfl⟩
  · obtain ⟨mar, bus, pc, u, cycle, -, -⟩ := exec_eq_endCycle halt s
    rw [cycle] at ht
    cases ht
    exact ⟨rfl, rfl, rfl⟩

/-- Only CMP and CPI end with a subtraction (R134, R135). -/
theorem lastWord_su (i : Instr) :
    (lastWord i).su = true ↔ sel i.opcode = 0x0B#5 ∨ sel i.opcode = 0x0C#5 := by
  cases i with
  | cmp x d | cpi x d =>
    rw [Instr.opcode, sel_opcodeByte x (by decide)]
    show ControlWord.srSu.su = true ↔ _
    decide
  | nop x | lda x d | ldi x d | ldb x d | lbi x d | add x d | adi x d | sub x d | sbi x d | sta x d
  | jmp x d | bnz x d | jz x d =>
    rw [Instr.opcode, sel_opcodeByte x (by decide)]
    show ControlWord.stepReset.su = true ↔ _
    decide
  | jc d | inc d | dec d =>
    simp only [Instr.opcode, sel_extended_opcodes]
    show ControlWord.stepReset.su = true ↔ _
    decide
  | out | hlt | unassignedF4 | unassignedF5 | unassignedF6 | unassignedF7 | unassignedF8 | unassignedF9
  | unassignedFA | unassignedFB | unassignedFC | unassignedFD | unassignedFE => decide

/-- Settles O30: the flags are those of the last recompute, which subtracts for CMP and CPI only. -/
theorem boundaryFlagsAreOfTheSum : Obligations.BoundaryFlagsAreOfTheSum := by
  intro i s t ht
  obtain ⟨aluOut, cf, zf⟩ := flagsOf_exec ht
  split
  case isTrue compare =>
    rw [(lastWord_su i).mpr compare, alu_true] at aluOut cf zf
    exact ⟨aluOut, by rw [cf, sub8_borrow_iff], by rw [zf, beq_iff_eq]; exact difference_zero _ _⟩
  case isFalse other =>
    rw [(Bool.not_eq_true _).mp ((lastWord_su i).not.mpr other), alu_false] at aluOut cf zf
    exact ⟨aluOut, by rw [cf, add8_carry_iff], by rw [zf, beq_iff_eq]; exact Iff.rfl⟩

/-- The rows of the branches start with MI+CO and jump at their second microstep (R91, R171). -/
theorem rom_branch {selector : Selector} (branch : selector ∈ [0x0A#5, 0x0D#5, 0x0E#5, 0x10#5])
    (cf zf : Bool) :
    rom cf zf selector 2#4 = .miCo ∧ ∃ gate, rom cf zf selector 3#4 = .roJ gate := by
  fin_cases branch <;> exact ⟨rfl, _, rfl⟩

/-- The flags that MI+CO leaves are those that an addition would recompute (R92). -/
theorem recompute_tickWith_miCo (s : State) :
    (recompute false (tickWith .miCo s)).cf = (tickWith .miCo s).cf ∧
      (recompute false (tickWith .miCo s)).zf = (tickWith .miCo s).zf := by
  rw [tickWith_miCo]
  exact ⟨rfl, rfl⟩

/-- Settles O32: microstep 2 leaves A and B and the flags of their sum, which microstep 3 recomputes. -/
theorem gateReadsEitherFlags : Obligations.GateReadsEitherFlags := by
  intro s u running atTwo branch ticks
  obtain ⟨word, -⟩ := rom_branch branch s.cf s.zf
  have fetchWord : nextWord s = .miCo := by rw [nextWord, decodeControl, atTwo, word]
  rw [tick_running running, fetchWord] at ticks
  cases ticks
  have atThree : (tickWith .miCo s).tStep = 3#4 := by rw [tickWith_miCo, atTwo]; rfl
  obtain ⟨-, gate, jumpWord⟩ := rom_branch branch (tickWith .miCo s).cf (tickWith .miCo s).zf
  have jumps : nextWord (tickWith .miCo s) = .roJ gate := by
    rw [nextWord, decodeControl, atThree, ← jumpWord]
    rfl
  rw [jumps]
  exact ⟨atThree, rfl, recompute_tickWith_miCo s⟩

end Sys2Proof.Machine
end

section
/-! What each instruction may write (R33), and pairs of instructions: a compare or a subtraction before a
branch (R154), and a store before the next fetch (R52). -/

namespace Sys2Proof.Machine

/-! ### The writers of each element -/

/-- The selector of a primary opcode is in a list if its high nibble is. -/
theorem sel_primary_mem {op : Nibble} {selectors : List Selector} (x : Nibble) (primary : op ≠ 0xF#4)
    (listed : 0b0#1 ++ op ∈ selectors) : sel (opcodeByte op x) ∈ selectors := by
  rwa [sel_opcodeByte x primary]

/-- Settles O31: instruction by instruction, each element either as it was or written by a selector listed. -/
theorem writersOfEachElement : Obligations.WritersOfEachElement := by
  intro i s t ht
  cases i with
  | nop x | unassignedF4 | unassignedF5 | unassignedF6 | unassignedF7 | unassignedF8
  | unassignedF9 | unassignedFA | unassignedFB | unassignedFC | unassignedFD | unassignedFE =>
    cases ht
    exact ⟨absurd rfl, absurd rfl, absurd rfl, absurd rfl, absurd rfl, absurd rfl⟩
  | lda x a | ldi x k =>
    cases ht
    exact ⟨fun _ => sel_primary_mem x (by decide) (by decide), absurd rfl, absurd rfl, absurd rfl,
      absurd rfl, absurd (afterTwo_eq s)⟩
  | ldb x a | lbi x k | cmp x a | cpi x k =>
    cases ht
    exact ⟨absurd rfl, fun _ => sel_primary_mem x (by decide) (by decide), absurd rfl, absurd rfl,
      absurd rfl, absurd (afterTwo_eq s)⟩
  | add x a | adi x k | sub x a | sbi x k =>
    cases ht
    exact ⟨fun _ => sel_primary_mem x (by decide) (by decide),
      fun _ => sel_primary_mem x (by decide) (by decide), absurd rfl, absurd rfl, absurd rfl,
      absurd (afterTwo_eq s)⟩
  | sta x a =>
    cases ht
    exact ⟨absurd rfl, absurd rfl, fun _ => sel_primary_mem x (by decide) (by decide), absurd rfl,
      absurd rfl, absurd (afterTwo_eq s)⟩
  | inc a | dec a =>
    cases ht
    simp only [Instr.opcode, sel_extended_opcodes]
    exact ⟨fun _ => by decide, fun _ => by decide, fun _ => by decide, absurd rfl, absurd rfl,
      absurd (afterTwo_eq s)⟩
  | jmp x d | bnz x d | jz x d =>
    cases ht
    exact ⟨absurd rfl, absurd rfl, absurd rfl, absurd rfl, absurd rfl,
      fun _ => sel_primary_mem x (by decide) (by decide)⟩
  | jc d =>
    cases ht
    simp only [Instr.opcode, sel_extended_opcodes]
    exact ⟨absurd rfl, absurd rfl, absurd rfl, absurd rfl, absurd rfl, fun _ => by decide⟩
  | out =>
    cases ht
    exact ⟨absurd rfl, absurd rfl, absurd rfl, fun _ => by decide, absurd rfl, absurd rfl⟩
  | hlt =>
    cases ht
    exact ⟨absurd rfl, absurd rfl, absurd rfl, absurd rfl, fun _ => by decide, absurd rfl⟩

/-! ### Two instructions, one after the other -/

/-- Four bytes at `pc` are two at `pc` and two at the address 2 after it (R47). -/
theorem codeAt_pair {b₀ b₁ b₂ b₃ p : Byte} {s : State} (code : codeAt [b₀, b₁, b₂, b₃] p s = true) :
    codeAt [b₀, b₁] p s = true ∧ codeAt [b₂, b₃] (p + 2#8) s = true := by
  simp only [codeAt, Bool.and_eq_true, BitVec.add_assoc] at code ⊢
  obtain ⟨first, second, third, fourth, -⟩ := code
  exact ⟨⟨first, second, trivial⟩, third, fourth, trivial⟩

/-- Bytes that stand in one memory stand in any that is equal to it. -/
theorem codeAt_of_memory_eq {bytes : List Byte} {p : Byte} {s u : State} (memory : u.memory = s.memory)
    (code : codeAt bytes p s = true) : codeAt bytes p u = true := by
  induction bytes generalizing p with
  | nil => rfl
  | cons b bytes ih =>
    rw [codeAt, Bool.and_eq_true] at code ⊢
    obtain ⟨first, rest⟩ := code
    exact ⟨by rw [memory, first], ih rest⟩

/-- Settles O33: after CPI, B is the datum, and JZ tests A + B. -/
theorem compareDoesNotReachTheBranch : Obligations.CompareDoesNotReachTheBranch := by
  intro k t s boundary code
  obtain ⟨compareCode, branchCode⟩ := codeAt_pair code
  obtain ⟨-, -, -, -, equal, ⟨next, -⟩, -⟩ :=
    comparison_effect (0xC#4 ++ 0x0#4) (s.pc + 1#8) k (s.pc + 2#8) boundary.1
  have compare := (step_of_codeAt (i := .cpi 0x0#4 k) boundary compareCode).trans (exec_cpi 0x0#4 k s)
  have branch := (step_of_codeAt (i := .jz 0x0#4 t) next (codeAt_of_memory_eq (s := s) rfl branchCode)).trans
    (exec_jz 0x0#4 t _)
  refine ⟨_, _, compare, equal, branch, ?_⟩
  simp only [endCycle_regA, endCycle_regB, endCycle_pc, beq_iff_eq, BitVec.add_assoc, BitVec.reduceAdd]

/-- Settles O34: after SBI, A + B carries exactly when the subtraction borrowed, and JC tests that carry. -/
theorem subtractionBorrowReachesJc : Obligations.SubtractionBorrowReachesJc := by
  intro k t s boundary code
  obtain ⟨subtractCode, branchCode⟩ := codeAt_pair code
  obtain ⟨⟨difference, -, -⟩, -, -, -, next, -⟩ :=
    difference_effect (0x8#4 ++ 0x0#4) (s.pc + 1#8) k (s.pc + 2#8) boundary.1
  have subtract := (step_of_codeAt (i := .sbi 0x0#4 k) boundary subtractCode).trans (exec_sbi 0x0#4 k s)
  have branch := (step_of_codeAt (i := .jc t) next (codeAt_of_memory_eq (s := s) rfl branchCode)).trans
    (exec_jc t _)
  refine ⟨_, _, subtract, difference, branch, ?_⟩
  simp only [endCycle_regA, endCycle_regB, endCycle_pc, decide_eq_true_iff, carry_of_difference,
    BitVec.add_assoc, BitVec.reduceAdd]

/-- Settles O35: STA leaves `pc` at the next instruction, which is fetched from memory as it then stands. -/
theorem storesReachTheNextFetch : Obligations.StoresReachTheNextFetch := by
  intro x a s boundary code
  have store := (step_of_codeAt (i := .sta x a) boundary code).trans (exec_sta x a s)
  have third : inc8 (s.pc + 2#8) = s.pc + 3#8 := BitVec.add_assoc s.pc 2#8 1#8
  refine ⟨_, store, rfl, Memory.read_write_same _ _ _, ?_, ?_⟩
  · rintro rfl
    have other : s.pc + 3#8 ≠ s.pc + 2#8 := by bv_omega
    simp [fetchInstr, fetchBytes, third, Memory.read_write_other _ _ other]
  · rintro rfl
    have other : s.pc + 2#8 ≠ s.pc + 3#8 := by bv_omega
    simp [fetchInstr, fetchBytes, third, Memory.read_write_other _ _ other]

end Sys2Proof.Machine
end

section
/-! The parameter INCDEC_REALISATION (R8): under `refuse` a tick, a step or a run is that of this machine, or
is refused for INC or DEC. -/

namespace Sys2Proof.Machine

/-! ### The tick -/

/-- The rows that `refuse` leaves without a meaning (R8). -/
theorem unrealised_refuse_iff (selector : Selector) (t : Microstep) :
    unrealised .refuse selector t = true ↔ (selector = 0x11#5 ∨ selector = 0x12#5) ∧ 2 ≤ t.toNat := by
  simp [unrealised]

/-- Settles O37: the tick is refused exactly in those rows, and the meanings by definition. -/
theorem refuseParameterStopsIncAndDec : Obligations.RefuseParameterStopsIncAndDec := by
  refine ⟨fun s running late incDec => ?_, fun s otherwise => ?_, fun a s => ⟨rfl, rfl⟩⟩
  · rw [tickAs_refuse_running running, if_pos ((unrealised_refuse_iff _ _).mpr ⟨incDec, late⟩)]
  · cases h : s.hlt with
    | true => rw [tickAs_halted _ h, tickAs_halted _ h]
    | false =>
      have realised : ¬ unrealised .refuse (sel s.ir) s.tStep = true := by
        rw [unrealised_refuse_iff]
        rintro ⟨incDec, late⟩
        rcases otherwise with halted | early | ⟨notInc, notDec⟩
        · simp [h] at halted
        · omega
        · exact incDec.elim notInc notDec
      rw [tickAs_refuse_running h, if_neg realised, tickAs_k1_running h]

/-- Under `refuse` a tick is this machine's or is refused for INC or DEC (R8). -/
theorem tickAs_refuse_eq_or (s : State) :
    tickAs .refuse s = tick s ∨ tickAs .refuse s = .refused .incDecNotRealised := by
  cases h : s.hlt with
  | true => exact .inl ((tickAs_halted _ h).trans (tick_halted h).symm)
  | false =>
    rw [tickAs_refuse_running h, tick_running h]
    split
    · exact .inr rfl
    · exact .inl rfl

/-- Under `refuse` a run of ticks is this machine's or is refused for INC or DEC (R8). -/
theorem runTicksAs_refuse_eq_or (n : Nat) (s : State) :
    runTicksAs .refuse n s = runTicks n s ∨ runTicksAs .refuse n s = .refused .incDecNotRealised := by
  induction n generalizing s with
  | zero => exact .inl rfl
  | succ n ih =>
    obtain ⟨t, ht⟩ := exists_tick_next s
    rcases tickAs_refuse_eq_or s with same | refused
    · rw [runTicksAs_next n (same.trans ht), runTicks_next n ht]
      exact ih t
    · exact .inr (runTicksAs_refused n refused)

/-- Where every tick of a run is the same under `refuse`, so is the run. -/
theorem runTicksAs_refuse_eq {n : Nat} {s : State}
    (same : ∀ k u, k < n → runTicks k s = .next u → tickAs .refuse u = tick u) :
    runTicksAs .refuse n s = runTicks n s := by
  induction n generalizing s with
  | zero => rfl
  | succ n ih =>
    obtain ⟨t, ht⟩ := exists_tick_next s
    have first : tickAs .refuse s = .next t := (same 0 s n.succ_pos rfl).trans ht
    rw [runTicksAs_next n first, runTicks_next n ht]
    exact ih fun k u below run =>
      same (k + 1) u (Nat.succ_lt_succ below) ((runTicks_next k ht).trans run)

/-- A run of ticks under either value can be cut in two. -/
theorem runTicksAs_add {p : IncDecRealisation} {m : Nat} (n : Nat) {s t : State}
    (h : runTicksAs p m s = .next t) : runTicksAs p (n + m) s = runTicksAs p n t := by
  induction m generalizing s with
  | zero => cases h; rfl
  | succ m ih =>
    cases first : tickAs p s with
    | next u =>
      rw [runTicksAs_next m first] at h
      exact (runTicksAs_next (n + m) first).trans (ih h)
    | refused r =>
      rw [runTicksAs_refused m first] at h
      cases h
    | fault r => nomatch r

/-! ### The instruction and the step -/

/-- The opcode bytes of INC and DEC are 0xF1 and 0xF2 (R64). -/
theorem opcode_incDec_iff (i : Instr) :
    (i.opcode = 0xF1#8 ∨ i.opcode = 0xF2#8) ↔ ∃ a, i = .inc a ∨ i = .dec a := by
  constructor
  · have decoded := decodePair_opcode i 0x00#8
    rintro (opcode | opcode) <;> rw [opcode] at decoded
    · exact ⟨_, .inl (decoded.symm.trans (decodePair_opcode (.inc _) 0x00#8))⟩
    · exact ⟨_, .inr (decoded.symm.trans (decodePair_opcode (.dec _) 0x00#8))⟩
  · rintro ⟨a, rfl | rfl⟩
    · exact .inl rfl
    · exact .inr rfl

/-- Under either value every instruction but INC and DEC has its one meaning (R8). -/
theorem execAs_eq_exec (p : IncDecRealisation) {i : Instr} (s : State)
    (other : ¬ ∃ a, i = .inc a ∨ i = .dec a) : execAs p i s = exec i s := by
  cases i with
  | inc a => exact absurd ⟨a, .inl rfl⟩ other
  | dec a => exact absurd ⟨a, .inr rfl⟩ other
  | _ => rfl

/-- Under `refuse` INC and DEC are refused (R8). -/
theorem execAs_refuse_of_incDec {i : Instr} (s : State) (h : ∃ a, i = .inc a ∨ i = .dec a) :
    execAs .refuse i s = .refused .incDecNotRealised := by
  obtain ⟨a, rfl | rfl⟩ := h
  · rfl
  · rfl

/-- Under `refuse` the ticks to the boundary are this machine's or are refused for INC or DEC (R8). -/
theorem ticksToBoundaryAs_refuse_eq_or (n : Nat) (s : State) :
    ticksToBoundaryAs .refuse n s = ticksToBoundary n s ∨
      ticksToBoundaryAs .refuse n s = .refused .incDecNotRealised := by
  induction n generalizing s with
  | zero => exact .inl rfl
  | succ n ih =>
    obtain ⟨t, ht⟩ := exists_tick_next s
    have ht' : tickAs Config.incDecRealisation s = .next t := ht
    rcases tickAs_refuse_eq_or s with same | refused
    · rw [ht] at same
      simp only [ticksToBoundary, ticksToBoundaryAs, same, ht']
      split
      · exact .inl rfl
      · exact ih t
    · simp only [ticksToBoundaryAs, refused, or_true]

/-- Under `refuse` a step is this machine's or is refused for INC or DEC (R8). -/
theorem stepAs_refuse_eq_or (s : State) :
    stepAs .refuse s = step s ∨ stepAs .refuse s = .refused .incDecNotRealised := by
  cases h : s.hlt with
  | true => exact .inl ((stepAs_halted _ h).trans (step_halted h).symm)
  | false =>
    by_cases atZero : s.tStep = 0#4
    · rw [stepAs_boundary _ h atZero, step_boundary h atZero]
      by_cases incDec : ∃ a, fetchInstr s = .inc a ∨ fetchInstr s = .dec a
      · exact .inr (execAs_refuse_of_incDec s incDec)
      · exact .inl (execAs_eq_exec .refuse s incDec)
    · rw [stepAs_midCycle _ h atZero, step_midCycle h atZero]
      exact ticksToBoundaryAs_refuse_eq_or longestCycle s

/-- Under `refuse` a run of steps is this machine's or is refused for INC or DEC (R8). -/
theorem run_refuse_eq_or (n : Nat) (s : State) :
    Host.Core.run (coreAs .refuse) n s = Host.Core.run Sys2Proof.core n s ∨
      Host.Core.run (coreAs .refuse) n s = .refused .incDecNotRealised := by
  induction n generalizing s with
  | zero => exact .inl rfl
  | succ n ih =>
    obtain ⟨-, -, steps⟩ := nothingEverStops
    obtain ⟨t, ht⟩ := steps s
    rcases stepAs_refuse_eq_or s with same | refused
    · rw [run_next (M := coreAs .refuse) n (same.trans ht), run_next (M := Sys2Proof.core) n ht]
      exact ih t
    · have first : (coreAs .refuse).step s = .refused .incDecNotRealised := refused
      exact .inr (by simp only [Host.Core.run, first])

/-- Settles O60: step by step and tick by tick, either the same or refused. -/
theorem runsUnderRefuseAgreeOrStop : Obligations.RunsUnderRefuseAgreeOrStop :=
  fun n s => ⟨run_refuse_eq_or n s, runTicksAs_refuse_eq_or n s⟩

/-! ### The cycle -/

/-- INC and DEC are the opcode bytes that select the rows 0x11 and 0x12 (R63, R64). -/
theorem sel_incDec_iff (op : Byte) :
    (sel op = 0x11#5 ∨ sel op = 0x12#5) ↔ (op = 0xF1#8 ∨ op = 0xF2#8) := by
  revert op; decide

/-- Of the words of `refuse`'s rows none has K1 (R8, R28). -/
theorem rom_k1_of_realised {cf zf : Bool} {selector : Selector} {t : Microstep}
    (realised : ¬ unrealised .refuse selector t = true) : (rom cf zf selector t).k1 = false := by
  rw [unrealised_refuse_iff] at realised
  by_cases incDec : selector = 0x11#5 ∨ selector = 0x12#5
  · have early : t.toNat < 2 := not_le.mp fun late => realised ⟨incDec, late⟩
    have fetch : t = 0#4 ∨ t = 1#4 := by bv_omega
    rcases fetch with rfl | rfl <;> rfl
  · have row : ∀ (cf zf : Bool) (selector : Selector), ¬ (selector = 0x11#5 ∨ selector = 0x12#5) →
        ∀ w ∈ executeRow cf zf selector, w.k1 = false := by decide
    exact rom_of_forall_row (row cf zf selector incDec) rfl rfl rfl t

/-- In the cycle of the instruction at `pc` every state is halted, in the fetch, or has the opcode byte in
`ir` (R84, R85, R96). -/
theorem ir_within_cycle {s : State} (h : AtBoundary s) {k : Nat} {u : State}
    (below : k < 2 + executeCount (fetchInstr s)) (run : runTicks k s = .next u) :
    u.hlt = true ∨ u.tStep.toNat < 2 ∨ u.ir = s.memory.read s.pc := by
  obtain ⟨t, v, first, -, atOne, second, atTwo⟩ := runTicks_fetch h
  obtain ⟨-, atZero⟩ := id h
  obtain ⟨-, -, opcode⟩ := id atTwo
  rw [executeCount_fetchInstr] at below
  match k with
  | 0 =>
    cases run
    exact .inr (.inl (by rw [atZero]; decide))
  | 1 =>
    rw [first] at run
    cases run
    exact .inr (.inl (by rw [atOne]; decide))
  | j + 2 =>
    by_cases isHalt : s.memory.read s.pc = 0xFF#8
    · match j with
      | 0 =>
        rw [second] at run
        cases run
        exact .inr (.inr opcode)
      | 1 =>
        obtain ⟨w, third, halted, -, -⟩ := runTicks_halt_cycle h isHalt
        rw [third] at run
        cases run
        exact .inl halted
      | j + 2 =>
        have short : executeSteps (sel 0xFF#8) = 2 := by decide
        rw [isHalt, short] at below
        omega
    · obtain ⟨w, within, -, -, opcode⟩ := runTicks_within_row atTwo isHalt (j := j) (by omega)
      rw [Nat.add_comm, runTicks_add second, within] at run
      cases run
      exact .inr (.inr opcode)

/-- Under `refuse` INC and DEC take their two fetch ticks and no more, and their step is refused (R8). -/
theorem refuse_stops_incDec {s : State} (h : AtBoundary s)
    (incDec : s.memory.read s.pc = 0xF1#8 ∨ s.memory.read s.pc = 0xF2#8) :
    (∃ t, runTicksAs .refuse 2 s = .next t ∧ runTicks 2 s = .next t ∧ t.tStep = 2#4 ∧
      t.ir = s.memory.read s.pc) ∧
    (∀ n, runTicksAs .refuse (3 + n) s = .refused .incDecNotRealised) ∧
    stepAs .refuse s = .refused .incDecNotRealised := by
  obtain ⟨t, u, first, -, atOne, second, running, microstep, opcode⟩ := runTicks_fetch h
  obtain ⟨refusedTick, sameTick, -⟩ := refuseParameterStopsIncAndDec
  obtain ⟨runs, atZero⟩ := h
  have fetch : runTicksAs .refuse 2 s = .next u := by
    refine (runTicksAs_refuse_eq fun k v below run => sameTick v (.inr (.inl ?_))).trans second
    match k with
    | 0 =>
      cases run
      rw [atZero]
      decide
    | 1 =>
      rw [first] at run
      cases run
      rw [atOne]
      decide
  have row : sel u.ir = 0x11#5 ∨ sel u.ir = 0x12#5 := by
    rw [opcode]
    exact (sel_incDec_iff _).mpr incDec
  refine ⟨⟨u, fetch, second, BitVec.eq_of_toNat_eq microstep, opcode⟩, fun n => ?_, ?_⟩
  · have third := runTicksAs_refused n (refusedTick u running microstep.ge row)
    rw [show 3 + n = n + 1 + 2 by omega, runTicksAs_add (n + 1) fetch, third]
  · have fetched : (fetchInstr s).opcode = s.memory.read s.pc := opcode_decodePair _ _
    rw [← fetched, opcode_incDec_iff] at incDec
    rw [stepAs_boundary _ runs atZero, execAs_refuse_of_incDec s incDec]

/-- Under `refuse` the cycle and the step of any other opcode byte are those of this machine (R8). -/
theorem refuse_keeps_other {s : State} (h : AtBoundary s)
    (other : ¬ (s.memory.read s.pc = 0xF1#8 ∨ s.memory.read s.pc = 0xF2#8)) :
    stepAs .refuse s = step s ∧
      ∀ n, n ≤ 2 + executeCount (fetchInstr s) → runTicksAs .refuse n s = runTicks n s := by
  obtain ⟨-, sameTick, -⟩ := refuseParameterStopsIncAndDec
  have otherRow : ¬ (sel (s.memory.read s.pc) = 0x11#5 ∨ sel (s.memory.read s.pc) = 0x12#5) :=
    (sel_incDec_iff _).not.mpr other
  constructor
  · have fetched : (fetchInstr s).opcode = s.memory.read s.pc := opcode_decodePair _ _
    obtain ⟨runs, atZero⟩ := h
    rw [← fetched, opcode_incDec_iff] at other
    rw [stepAs_boundary _ runs atZero, step_boundary runs atZero, execAs_eq_exec .refuse s other]
  · refine fun n within => runTicksAs_refuse_eq fun k u below run => sameTick u ?_
    rcases ir_within_cycle h (below.trans_le within) run with halted | fetching | opcode
    · exact .inl halted
    · exact .inr (.inl fetching)
    · exact .inr (.inr (by rw [opcode]; exact not_or.mp otherRow))

/-- Settles O59: the ROM, the meanings, the machine that Config names, and the cycles under `refuse`. -/
theorem theParameterDecidesRuns : Obligations.TheParameterDecidesRuns := by
  refine ⟨fun cf zf selector t => ⟨rfl, fun w word => ?_⟩, fun p i s other => ?_,
    fun s => ⟨stepAs_config s, fun _ => rfl⟩, fun s => refuse_stops_incDec,
    fun s boundary notInc notDec => refuse_keeps_other boundary (not_or.mpr ⟨notInc, notDec⟩)⟩
  · rw [romAs] at word
    split at word
    case isTrue => cases word
    case isFalse realised =>
      cases word
      exact ⟨rfl, rom_k1_of_realised realised⟩
  · refine execAs_eq_exec p s ?_
    rintro ⟨a, inc | dec⟩
    · exact (other a).1 inc
    · exact (other a).2 dec

end Sys2Proof.Machine
end
